-- ==== Sys2Proof/Word.lean ====
section
/-! DEFINITION. The word types of the machine (00_scope.md R8, R9).
Every datum is an unsigned 8-bit number, so the sum, difference and product of two bytes are the `BitVec`
operations `+`, `-`, `*`, which are the spec's `+8`, `-8`, `*8` (modulo 256). -/

namespace Sys2Proof

/-- A register value, memory cell, address, operand byte or program counter (00_scope.md R9). -/
abbrev Byte := BitVec 8

/-- A register index, 0 to 7 (10_state.md R20). -/
abbrev Reg := Fin 8

end Sys2Proof
end

