-- ==== Sys2Proof/Config.lean ====
section
/-! DEFINITION. The implementation parameters of 00_scope.md R6 that are constants of this hardware.
The one open parameter, `OPCODE_MAP`, is the type `OpcodeMap` of Sys2Proof/Decode.lean, which the decoder and the
cycle take as an argument (00_scope.md R7). The spec leaves no result open, so there is no free value here. -/

namespace Sys2Proof.Config

/-- `MEM_SIZE`: 256 cells (00_scope.md R6). -/
abbrev memSize : Nat := 256

/-- `SP_INDEX`: register 6 is the stack pointer (10_state.md R23). -/
abbrev spIndex : Reg := 6

/-- `SP_RESET` (10_state.md R24). -/
abbrev spReset : Byte := 0xF4

/-- `PC_RESET` (10_state.md R26). -/
abbrev pcReset : Byte := 0x00

/-- `LOAD_BASE`: the address of the first program byte (70_reset_and_hazards.md R246). -/
abbrev loadBase : Byte := 0x00

/-- `FL_RESET` (10_state.md R31; log 2). -/
abbrev flReset : BitVec 3 := 0b000

end Sys2Proof.Config
end

