-- ==== Sys2Proof/Syntax.lean ====
section
/-! DEFINITION. The fourteen instructions (30_encoding.md R87), as syntax.
An operand is the operand byte as fetched: a register index is the WHOLE byte (30_encoding.md R85), and one above 7
is an instruction that decodes and then faults (40_cycle.md R114; log 12), so the byte is kept. -/

namespace Sys2Proof

/-- The fourteen mnemonics, in the order of 30_encoding.md R87. -/
inductive Mnemonic where
  | hlt | ldi | prn | add | mul | cmp | push | pop | call | ret | jmp | jeq | jne | st
  deriving DecidableEq, Repr

/-- One constructor per row of spec/opcode_table.json; operand bytes in encoding order, `opA` first (30_encoding.md R84). -/
inductive Instr where
  /-- HLT (41_system_io.md R130). -/
  | hlt
  /-- LDI Ra, imm (42_data_movement.md R140). -/
  | ldi (a imm : Byte)
  /-- PRN Ra (41_system_io.md R131). -/
  | prn (a : Byte)
  /-- ADD Ra, Rb (43_alu.md R153). -/
  | add (a b : Byte)
  /-- MUL Ra, Rb (43_alu.md R154). -/
  | mul (a b : Byte)
  /-- CMP Ra, Rb (43_alu.md R155). -/
  | cmp (a b : Byte)
  /-- PUSH Ra (44_stack.md R170). -/
  | push (a : Byte)
  /-- POP Ra (44_stack.md R171). -/
  | pop (a : Byte)
  /-- CALL Ra (45_control_transfer.md R180). -/
  | call (a : Byte)
  /-- RET (45_control_transfer.md R182). -/
  | ret
  /-- JMP Ra (45_control_transfer.md R184). -/
  | jmp (a : Byte)
  /-- JEQ Ra (45_control_transfer.md R185). -/
  | jeq (a : Byte)
  /-- JNE Ra (45_control_transfer.md R186). -/
  | jne (a : Byte)
  /-- ST Ra, Rb: address register first (42_data_movement.md R141). -/
  | st (a b : Byte)
  deriving DecidableEq, Repr

end Sys2Proof
end

