-- ==== Sys2Proof/WellFormed.lean ====
section
/-! DEFINITION. The well-formed instructions: every operand that 30_encoding.md R84 calls a register index names a
register (R85). LDI's literal is never checked (R86). The machine does not assume well-formedness: an ill-formed
instruction decodes, and its meaning takes the fault `InvalidRegisterIndex` (40_cycle.md R114). -/

namespace Sys2Proof

/-- A register-index operand is legal when it is 0 to 7 (30_encoding.md R85). -/
def legalIndex (b : Byte) : Bool := b.toNat < 8

/-- Every register-index operand of the instruction is legal (30_encoding.md R84). -/
def Instr.wf : Instr → Bool
  | .hlt | .ret => true
  | .ldi a _ | .prn a | .push a | .pop a | .call a | .jmp a | .jeq a | .jne a => legalIndex a
  | .add a b | .mul a b | .cmp a b | .st a b => legalIndex a && legalIndex b

end Sys2Proof
end

