-- ==== Sys2Proof/Decode.lean ====
section
/-! DEFINITION. Decoding by whole-byte table lookup (30_encoding.md R80 to R90) and, after it, the encoder.
Both take the opcode map as an argument (00_scope.md R7); the default map is `defaultOpcodeMap` (R88). -/

namespace Sys2Proof

/-- `OPCODE_MAP`: an injective function from the fourteen mnemonics to bytes (00_scope.md R7). -/
structure OpcodeMap where
  byteOf : Mnemonic → Byte
  injective : ∀ m n, byteOf m = byteOf n → m = n

/-- The default opcode bytes (30_encoding.md R88). PRESUMED: the spec marks them as general knowledge of LS-8 (log 1, unsafe). -/
def defaultOpcodeByte : Mnemonic → Byte
  | .hlt => 0x01
  | .ldi => 0x82
  | .prn => 0x47
  | .add => 0xA0
  | .mul => 0xA2
  | .cmp => 0xA7
  | .push => 0x45
  | .pop => 0x46
  | .call => 0x50
  | .ret => 0x11
  | .jmp => 0x54
  | .jeq => 0x55
  | .jne => 0x56
  | .st => 0x84

/-- The default `OPCODE_MAP` (30_encoding.md R88). -/
def defaultOpcodeMap : OpcodeMap where
  byteOf := defaultOpcodeByte
  injective := by
    intro m n
    cases m <;> cases n <;> decide

/-- The operand count of each mnemonic (30_encoding.md R87). -/
def Mnemonic.operandCount : Mnemonic → Nat
  | .hlt | .ret => 0
  | .prn | .push | .pop | .call | .jmp | .jeq | .jne => 1
  | .ldi | .add | .mul | .cmp | .st => 2

/-- The mnemonics in the order of 30_encoding.md R87. -/
def Mnemonic.all : List Mnemonic :=
  [.hlt, .ldi, .prn, .add, .mul, .cmp, .push, .pop, .call, .ret, .jmp, .jeq, .jne, .st]

/-- The mnemonic an instruction belongs to. -/
def Instr.mnemonic : Instr → Mnemonic
  | .hlt => .hlt
  | .ldi _ _ => .ldi
  | .prn _ => .prn
  | .add _ _ => .add
  | .mul _ _ => .mul
  | .cmp _ _ => .cmp
  | .push _ => .push
  | .pop _ => .pop
  | .call _ => .call
  | .ret => .ret
  | .jmp _ => .jmp
  | .jeq _ => .jeq
  | .jne _ => .jne
  | .st _ _ => .st

/-- Why the hardware's decoder refuses. -/
inductive DecodeError where
  /-- The opcode byte is not in the map: the cycle turns this into the fault `UnknownOpcode` (30_encoding.md R89). Safe. -/
  | unknownOpcode (op : Byte)
  deriving DecidableEq, Repr

/-- Why decoding a finite byte list refuses. -/
inductive StreamError where
  /-- The first byte is no opcode (30_encoding.md R89). Safe. -/
  | unknownOpcode (op : Byte)
  /-- The list ends inside an instruction. The hardware never meets this: its fetch always has three bytes
  (40_cycle.md R111). Safe. -/
  | truncated
  deriving DecidableEq, Repr

/-- Whole-byte lookup of an opcode (30_encoding.md R82). -/
def OpcodeMap.lookup (map : OpcodeMap) (op : Byte) : Option Mnemonic :=
  Mnemonic.all.find? (fun m => map.byteOf m == op)

/-- The instruction of a mnemonic and the two operand latches; bytes that are not part of it are ignored (30_encoding.md R84). -/
def Mnemonic.withOperands (m : Mnemonic) (opA opB : Byte) : Instr :=
  match m with
  | .hlt => .hlt
  | .ldi => .ldi opA opB
  | .prn => .prn opA
  | .add => .add opA opB
  | .mul => .mul opA opB
  | .cmp => .cmp opA opB
  | .push => .push opA
  | .pop => .pop opA
  | .call => .call opA
  | .ret => .ret
  | .jmp => .jmp opA
  | .jeq => .jeq opA
  | .jne => .jne opA
  | .st => .st opA opB

/-- The hardware's decoder, over the three fetched bytes (40_cycle.md R112). -/
def decode (map : OpcodeMap) (op opA opB : Byte) : Except DecodeError Instr :=
  match map.lookup op with
  | some m => .ok (m.withOperands opA opB)
  | none => .error (.unknownOpcode op)

/-- Decoding from a byte list: the instruction and the bytes after it. The length comes from the opcode byte alone
(30_encoding.md R82). -/
def decodeBytes (map : OpcodeMap) : List Byte → Except StreamError (Instr × List Byte)
  | [] => .error .truncated
  | op :: rest =>
    match map.lookup op with
    | none => .error (.unknownOpcode op)
    | some m =>
      if m.operandCount ≤ rest.length then
        .ok (m.withOperands (rest.getD 0 0) (rest.getD 1 0), rest.drop m.operandCount)
      else .error .truncated

/-- Byte `k` of a table word: bit 0 of the word is the least significant bit of the opcode byte, and every bit from
`nbits` up is 0. -/
def tableByte (nbits w k : Nat) : Byte := BitVec.ofNat 8 ((w % 2 ^ nbits) / 256 ^ k)

/-- The decoder on an instruction numbered as spec/opcode_table.json numbers its bits. -/
def decodeTableWord (nbits w : Nat) : Option Instr :=
  match decode defaultOpcodeMap (tableByte nbits w 0) (tableByte nbits w 1) (tableByte nbits w 2) with
  | .ok i => some i
  | .error _ => none

/-- The bytes of an instruction, lowest address first: the opcode byte, then its operand bytes (30_encoding.md R81). -/
def encode (map : OpcodeMap) : Instr → List Byte
  | .hlt => [map.byteOf .hlt]
  | .ldi a imm => [map.byteOf .ldi, a, imm]
  | .prn a => [map.byteOf .prn, a]
  | .add a b => [map.byteOf .add, a, b]
  | .mul a b => [map.byteOf .mul, a, b]
  | .cmp a b => [map.byteOf .cmp, a, b]
  | .push a => [map.byteOf .push, a]
  | .pop a => [map.byteOf .pop, a]
  | .call a => [map.byteOf .call, a]
  | .ret => [map.byteOf .ret]
  | .jmp a => [map.byteOf .jmp, a]
  | .jeq a => [map.byteOf .jeq, a]
  | .jne a => [map.byteOf .jne, a]
  | .st a b => [map.byteOf .st, a, b]

end Sys2Proof
end

