-- ==== Sys2Proof/Machine/State.lean ====
section
/-! DEFINITION. The architectural state of 10_state.md as plain data, the reasons a step can stop, and the state after
reset. -/

namespace Sys2Proof.Machine

/-- The run state (10_state.md R33). FAULTED is the terminal state the spec adds for fatal errors. -/
inductive RunState where
  | running
  | halted
  | faulted
  deriving DecidableEq, Repr

/-- The memory array `Mem` (10_state.md R37): the cells that differ from what an unlisted address reads as, 0x00, by
strictly rising address (log 3). Its operations and its canonical form stand in Machine/Ops.lean. -/
abbrev Memory := List Host.Cell

/-- The whole architectural state (10_state.md, the tuple before R20). -/
structure State where
  /-- `x[0]` to `x[7]`; `x[6]` is SP (10_state.md R20, R23). -/
  regs : Vector Byte 8
  /-- The program counter (10_state.md R26). -/
  pc : Byte
  /-- `FL`: L at bit 2, G at bit 1, E at bit 0 (10_state.md R29). -/
  fl : BitVec 3
  /-- `Mem` (10_state.md R37). -/
  mem : Memory
  /-- `run` (10_state.md R33). -/
  run : RunState
  /-- `fault_cause` (10_state.md R34). -/
  faultCause : BitVec 3
  /-- `fault_addr` (10_state.md R34). -/
  faultAddr : Byte
  /-- `fault_data` (10_state.md R34). -/
  faultData : Byte
  /-- `out`, the values handed to the sink, oldest first (10_state.md R38). -/
  out : List Byte
  deriving DecidableEq, Repr

/-- Why no step exists. The four faults of 60_exceptions.md R200 are no constructors here: the engine ENTERS them, and
the state after fault entry is a next state (R208; log 5). -/
inductive Fault where
  /-- The engine is HALTED and "has no step" (40_cycle.md R110). Raised by the cycle alone. Safe (log 4). -/
  | engineHalted
  /-- The engine is FAULTED and "has no step" (40_cycle.md R110). Raised by the cycle alone. Safe (log 4). -/
  | engineFaulted
  deriving DecidableEq, Repr

/-- Why the model has no meaning for an instruction. -/
inductive Refusal where
  /-- The instruction has no meaning in the model yet. Raised by a refused arm of `exec` (there is none left). Safe. -/
  | notModelled (mnemonic : String)
  deriving DecidableEq, Repr

/-- What a meaning answers. -/
abbrev Result := Host.Outcome State Fault Refusal

/-- The state after reset and before the program image is written (10_state.md R24, R40; 70_reset_and_hazards.md R241). -/
def State.reset : State where
  regs := #v[0, 0, 0, 0, 0, 0, Config.spReset, 0]
  pc := Config.pcReset
  fl := Config.flReset
  mem := []
  run := .running
  faultCause := 0
  faultAddr := 0
  faultData := 0
  out := []

end Sys2Proof.Machine
end

