-- ==== Sys2Proof/Machine/Ops.lean ====
section
/-! DEFINITION. The named operations over memory, registers, the program counter and the output log; fetching an
instruction's bytes; and fault entry. There is no return from a fault (60_exceptions.md R211): the one way out of
FAULTED is the host's reset, `State.hostReset` of Machine/HostInterface.lean. -/

namespace Sys2Proof.Machine

/-! ## Memory (10_state.md R37, 20_memory.md R50 to R70) -/

/-- What a cell that is not listed reads as: its reset value (10_state.md R37, 20_memory.md R67). -/
def Memory.unlisted : Byte := 0x00

/-- The canonical form: addresses strictly rising and inside the 256 cells, no cell equal to an unlisted one (log 3). -/
abbrev Memory.wf (m : Memory) : Prop :=
  m.Pairwise (fun c d => c.1 < d.1) ∧ ∀ c ∈ m, c.1 < Config.memSize ∧ c.2 ≠ Memory.unlisted

/-- `MemRead(a, 1)` (00_scope.md R12). The address is a byte, which is the reduction modulo 256 (20_memory.md R55). -/
def Memory.read (m : Memory) (a : Byte) : Byte :=
  (m.lookup a.toNat).getD Memory.unlisted

/-- The memory without a cell for the address. -/
def Memory.drop (m : Memory) (k : Nat) : Memory :=
  m.filter (fun c => c.1 != k)

/-- The memory with one more cell, before the first cell of a higher address. -/
def Memory.insertCell (c : Host.Cell) : Memory → Memory
  | [] => [c]
  | d :: ds => if c.1 < d.1 then c :: d :: ds else d :: Memory.insertCell c ds

/-- `MemWrite(a, 1, v)` (00_scope.md R12): the old cell goes, and the new one is listed unless it reads as an unlisted one. -/
def Memory.write (m : Memory) (a v : Byte) : Memory :=
  if v = Memory.unlisted then Memory.drop m a.toNat
  else Memory.insertCell (a.toNat, v) (Memory.drop m a.toNat)

/-- A sequence of bytes written to ascending addresses, modulo 256 (70_reset_and_hazards.md R246; 20_memory.md R55). -/
def Memory.writeImage (m : Memory) (a : Byte) : List Byte → Memory
  | [] => m
  | b :: bs => Memory.writeImage (m.write a b) (a + 1) bs

/-! ## Registers (10_state.md R20 to R23) -/

/-- `x[r]` (00_scope.md R10). No register is hardwired (10_state.md R21). -/
def State.reg (s : State) (r : Reg) : Byte := s.regs[r.val]

/-- `x[r] <- v` (00_scope.md R10). -/
def State.setReg (s : State) (r : Reg) (v : Byte) : State :=
  { s with regs := s.regs.set r.val v r.isLt }

/-- `SP`, the alias of `x[6]` (00_scope.md R10). -/
def State.sp (s : State) : Byte := s.reg Config.spIndex

/-- `SP <- v` (00_scope.md R10). -/
def State.setSp (s : State) (v : Byte) : State := s.setReg Config.spIndex v

/-! ## Memory, flags, program counter, run state and output of a state -/

/-- `MemRead(a, 1)` on the state's memory (20_memory.md R51). -/
def State.load (s : State) (a : Byte) : Byte := s.mem.read a

/-- `MemWrite(a, 1, v)` on the state's memory (20_memory.md R51). -/
def State.store (s : State) (a v : Byte) : State := { s with mem := s.mem.write a v }

/-- `FL <- f` (00_scope.md R11). -/
def State.setFl (s : State) (f : BitVec 3) : State := { s with fl := f }

/-- `pc <- t` (00_scope.md R11). -/
def State.jump (s : State) (t : Byte) : State := { s with pc := t }

/-- The address after an instruction of mnemonic `m`: `pc +8 (1 + n(m))` (10_state.md R27, 40_cycle.md R113). -/
def State.nextAddress (s : State) (m : Mnemonic) : Byte := s.pc + BitVec.ofNat 8 (1 + m.operandCount)

/-- The default advance of the program counter (40_cycle.md R113). -/
def State.advance (s : State) (m : Mnemonic) : State := s.jump (s.nextAddress m)

/-- `Emit(v)` (00_scope.md R14). It always succeeds (41_system_io.md R131; log 6). -/
def State.emit (s : State) (v : Byte) : State := { s with out := s.out ++ [v] }

/-- `run <- HALTED` (41_system_io.md R130). -/
def State.halt (s : State) : State := { s with run := .halted }

/-! ## Fetch (40_cycle.md R111) -/

/-- The three bytes the engine holds during one instruction (10_state.md R39); not architectural state. -/
structure Fetched where
  op : Byte
  opA : Byte
  opB : Byte
  deriving DecidableEq, Repr

/-- The opcode and both operand bytes, read unconditionally (40_cycle.md R111; 20_memory.md R61). -/
def State.fetch (s : State) : Fetched where
  op := s.load s.pc
  opA := s.load (s.pc + 1)
  opB := s.load (s.pc + 2)

/-! ## Fault entry (60_exceptions.md R200, R208) -/

/-- The fault causes (60_exceptions.md R200). -/
inductive FaultCause where
  /-- The byte at `pc` is not in the opcode map (R201). -/
  | unknownOpcode
  /-- An ALU operation tag outside ADD, MUL, CMP: no program can raise it and no definition of the model does (R203; log 18). -/
  | unsupportedAluOperation
  /-- A register-index operand above 7 (R202). -/
  | invalidRegisterIndex
  /-- PUSH or CALL with SP at 0x00 (R204). -/
  | stackOverflow
  deriving DecidableEq, Repr

/-- The code a cause records in `fault_cause` (60_exceptions.md R200). -/
def FaultCause.code : FaultCause → BitVec 3
  | .unknownOpcode => 1
  | .unsupportedAluOperation => 2
  | .invalidRegisterIndex => 3
  | .stackOverflow => 4

/-- Fault entry (60_exceptions.md R208): `run` and the fault registers are written, `fault_addr` with the faulting
instruction's own address; `x`, `pc`, `FL`, `Mem` and `out` are unchanged. -/
def State.takeFault (s : State) (c : FaultCause) (info : Byte) : State :=
  { s with run := .faulted, faultCause := c.code, faultAddr := s.pc, faultData := info }

end Sys2Proof.Machine
end

