-- ==== Sys2Proof/Machine/Flags.lean ====
section
/-! DEFINITION. The flags register: its values, its bits, and the one flag computation, that of CMP (10_state.md R29 to
R32; 43_alu.md R155). -/

namespace Sys2Proof.Machine

/-- `LESS_THAN` (00_scope.md R11). -/
def flLessThan : BitVec 3 := 0b100

/-- `GREATER_THAN` (00_scope.md R11). -/
def flGreaterThan : BitVec 3 := 0b010

/-- `EQUAL` (00_scope.md R11). -/
def flEqual : BitVec 3 := 0b001

/-- `FL.L`, bit 2 (10_state.md R29). -/
def State.flagL (s : State) : Bool := s.fl.getLsbD 2

/-- `FL.G`, bit 1 (10_state.md R29). -/
def State.flagG (s : State) : Bool := s.fl.getLsbD 1

/-- `FL.E`, bit 0 (10_state.md R29), the only flag an instruction reads (R30). -/
def State.flagE (s : State) : Bool := s.fl.getLsbD 0

/-- The four legal values of `FL` (10_state.md R29). -/
abbrev legalFl (f : BitVec 3) : Prop := f = 0b000 ∨ f = flLessThan ∨ f = flGreaterThan ∨ f = flEqual

/-- CMP's outcome on two register values, unsigned (43_alu.md R155). -/
def compareFl (va vb : Byte) : BitVec 3 :=
  if va.toNat < vb.toNat then flLessThan
  else if va.toNat > vb.toNat then flGreaterThan
  else flEqual

end Sys2Proof.Machine
end

