-- ==== Sys2Proof/Machine/Operands.lean ====
section
/-! DEFINITION. The operand forms and the checks made before an instruction writes anything (40_cycle.md R114 to R116).
The hardware has one operand form besides LDI's literal, which is used as fetched (30_encoding.md R86): the register
index. ST's register-indirect address is the value of such a register (42_data_movement.md R141). -/

namespace Sys2Proof.Machine

/-- `reg(b)` (00_scope.md R15): the register a whole operand byte names, if it is 0 to 7 (30_encoding.md R85; no masking). -/
def regOf (b : Byte) : Option Reg :=
  if h : b.toNat < 8 then some ⟨b.toNat, h⟩ else none

/-- The register-index check of one operand (40_cycle.md R114): an index above 7 enters `InvalidRegisterIndex`, with the
operand byte recorded. -/
def withReg (a : Byte) (s : State) (k : Reg → Result) : Result :=
  match regOf a with
  | some r => k r
  | none => .next (s.takeFault .invalidRegisterIndex a)

/-- The checks of two operands, `opA` before `opB` (40_cycle.md R116). -/
def withRegs (a b : Byte) (s : State) (k : Reg → Reg → Result) : Result :=
  withReg a s fun ra => withReg b s fun rb => k ra rb

/-- The stack-capacity check of PUSH and CALL and the decrement it guards (40_cycle.md R115): SP at 0x00 enters
`StackOverflow`; otherwise the rest of the instruction sees the decremented SP (44_stack.md R170, R173). -/
def withStackSlot (s : State) (k : State → Result) : Result :=
  if s.sp = 0x00 then .next (s.takeFault .stackOverflow 0x00)
  else k (s.setSp (s.sp - 1))

end Sys2Proof.Machine
end

