-- ==== Sys2Proof/Machine/Alu.lean ====
section
/-! DEFINITION. The ALU and its instructions ADD, MUL, CMP (43_alu.md). -/

namespace Sys2Proof.Machine

/-- The ALU's operation tags (43_alu.md R150). There is no fourth tag, so `UnsupportedALUOperation` has no path (R152; log 18). -/
inductive AluOp where
  | add
  | mul
  | cmp
  deriving DecidableEq, Repr

/-- `apply(operation, regA, regB)` (43_alu.md R150): ADD and MUL write the 8-bit result to `x[regA]` and leave `FL` (R151),
CMP writes `FL` and no register. -/
def State.aluApply (s : State) (op : AluOp) (ra rb : Reg) : State :=
  match op with
  | .add => s.setReg ra (s.reg ra + s.reg rb)
  | .mul => s.setReg ra (s.reg ra * s.reg rb)
  | .cmp => s.setFl (compareFl (s.reg ra) (s.reg rb))

/-- ADD (43_alu.md R153). -/
def execAdd (a b : Byte) (s : State) : Result :=
  withRegs a b s fun ra rb => .next ((s.aluApply .add ra rb).advance .add)

/-- MUL (43_alu.md R154). -/
def execMul (a b : Byte) (s : State) : Result :=
  withRegs a b s fun ra rb => .next ((s.aluApply .mul ra rb).advance .mul)

/-- CMP (43_alu.md R155). -/
def execCmp (a b : Byte) (s : State) : Result :=
  withRegs a b s fun ra rb => .next ((s.aluApply .cmp ra rb).advance .cmp)

end Sys2Proof.Machine
end

