-- ==== Sys2Proof/Machine/Stack.lean ====
section
/-! DEFINITION. PUSH and POP (44_stack.md). A statement sees the writes of the one before it (00_scope.md R15), which
decides the forms that name register 6 (44_stack.md R173; log 16). -/

namespace Sys2Proof.Machine

/-- PUSH (44_stack.md R170): `x[a]` is read after the decrement of SP. -/
def execPush (a : Byte) (s : State) : Result :=
  withReg a s fun ra => withStackSlot s fun s₁ => .next ((s₁.store s₁.sp (s₁.reg ra)).advance .push)

/-- The increment of SP, modulo 256 and unchecked (44_stack.md R171; log 14). -/
def State.incSp (s : State) : State := s.setSp (s.sp + 1)

/-- POP (44_stack.md R171): the register is written before SP is incremented. -/
def execPop (a : Byte) (s : State) : Result :=
  withReg a s fun ra => .next ((s.setReg ra (s.load s.sp)).incSp.advance .pop)

end Sys2Proof.Machine
end

