-- ==== Sys2Proof/Machine/Control.lean ====
section
/-! DEFINITION. CALL, RET, JMP, JEQ, JNE (45_control_transfer.md). -/

namespace Sys2Proof.Machine

/-- CALL (45_control_transfer.md R180): the return address is `pc +8 2`, and the target is read after the decrement of
SP (R181; log 16). -/
def execCall (a : Byte) (s : State) : Result :=
  withReg a s fun ra => withStackSlot s fun s₁ =>
    .next ((s₁.store s₁.sp (s₁.nextAddress .call)).jump (s₁.reg ra))

/-- RET (45_control_transfer.md R182). -/
def execRet (s : State) : Result :=
  .next (s.jump (s.load s.sp)).incSp

/-- JMP (45_control_transfer.md R184). -/
def execJmp (a : Byte) (s : State) : Result :=
  withReg a s fun ra => .next (s.jump (s.reg ra))

/-- The two arms of a conditional jump of mnemonic `m`: the register's value if taken, else past the operand byte
(45_control_transfer.md R185, R186). -/
def State.jumpIf (s : State) (taken : Bool) (m : Mnemonic) (ra : Reg) : State :=
  s.jump (if taken then s.reg ra else s.nextAddress m)

/-- JEQ (45_control_transfer.md R185): taken when `FL.E` is 1; a bad index faults even if not taken (40_cycle.md R114). -/
def execJeq (a : Byte) (s : State) : Result :=
  withReg a s fun ra => .next (s.jumpIf s.flagE .jeq ra)

/-- JNE (45_control_transfer.md R186): taken when `FL.E` is 0, so also before the first CMP (R187). -/
def execJne (a : Byte) (s : State) : Result :=
  withReg a s fun ra => .next (s.jumpIf (!s.flagE) .jne ra)

end Sys2Proof.Machine
end

