-- ==== Sys2Proof/Machine/DataMovement.lean ====
section
/-! DEFINITION. LDI and ST (42_data_movement.md). -/

namespace Sys2Proof.Machine

/-- LDI (42_data_movement.md R140). -/
def execLdi (a imm : Byte) (s : State) : Result :=
  withReg a s fun ra => .next ((s.setReg ra imm).advance .ldi)

/-- ST: the first operand holds the address, the second the value (42_data_movement.md R141). -/
def execSt (a b : Byte) (s : State) : Result :=
  withRegs a b s fun ra rb => .next ((s.store (s.reg ra) (s.reg rb)).advance .st)

end Sys2Proof.Machine
end

