-- ==== Sys2Proof/Machine/SystemIo.lean ====
section
/-! DEFINITION. HLT and PRN (41_system_io.md). -/

namespace Sys2Proof.Machine

/-- HLT (41_system_io.md R130; the advance of `pc` is log 15). -/
def execHlt (s : State) : Result :=
  .next (s.halt.advance .hlt)

/-- PRN (41_system_io.md R131). -/
def execPrn (a : Byte) (s : State) : Result :=
  withReg a s fun ra => .next ((s.emit (s.reg ra)).advance .prn)

end Sys2Proof.Machine
end

