-- ==== Sys2Proof/Machine/Cycle.lean ====
section
/-! DEFINITION. One cycle of the engine (40_cycle.md R110 to R117), for any opcode map (00_scope.md R7). -/

namespace Sys2Proof.Machine

/-- What the engine does with the decoder's answer: execute the instruction, or enter `UnknownOpcode` with the byte the
decoder refused (40_cycle.md R112; 30_encoding.md R89). -/
def runDecoded (s : State) : Except DecodeError Instr → Result
  | .ok i => exec i s
  | .error (.unknownOpcode op) => .next (s.takeFault .unknownOpcode op)

/-- One step of the engine. While `run` is HALTED or FAULTED the engine has no step (40_cycle.md R110; log 4). -/
def cycle (map : OpcodeMap) (s : State) : Result :=
  match s.run with
  | .halted => .fault .engineHalted
  | .faulted => .fault .engineFaulted
  | .running => runDecoded s (decode map s.fetch.op s.fetch.opA s.fetch.opB)

/-- The state with an instruction of the opcode table placed where the next fetch reads it (log 7). -/
def State.placeTableWord (s : State) (nbits w : Nat) : State :=
  { s with
    mem := s.mem.writeImage s.pc [tableByte nbits w 0, tableByte nbits w 1, tableByte nbits w 2]
    run := .running }

end Sys2Proof.Machine
end

