-- ==== Sys2Proof/Machine/Step.lean ====
section
/-! DEFINITION. The step of the machine: the cycle under the default opcode map (40_cycle.md R117; 30_encoding.md R88). -/

namespace Sys2Proof.Machine

/-- One step: one instruction, or one fault entry. -/
def step (s : State) : Host.Outcome State Fault Refusal := cycle defaultOpcodeMap s

/-- The state whose next step fetches and runs the given table word: the three bytes are stored at `pc` and after it, and
the engine is RUNNING, without which nothing is fetched (log 7). -/
def State.withFetchWord (s : State) (nbits w : Nat) : State := s.placeTableWord nbits w

end Sys2Proof.Machine
end

