-- ==== Sys2Proof/Machine/Loader.lean ====
section
/-! DEFINITION. The two collaborators at the engine's boundary, as pure functions: the loader's program text
(30_encoding.md R94, R95) and the sink's rendering of a printed value (41_system_io.md R131). Both are outside the block
(00_scope.md R5); their contracts are kept because the block's input and output are stated by them. -/

namespace Sys2Proof.Machine

/-- The host's refusal to start a run (60_exceptions.md R205). Not a fault of the engine; execution does not start. Safe. -/
inductive LoadError where
  /-- A line that is neither empty nor an 8-digit binary literal after comment stripping (30_encoding.md R95). -/
  | malformedLine (line : List Char)
  /-- An image of more than 256 bytes (70_reset_and_hazards.md R246; log 20). -/
  | imageTooLong (length : Nat)
  deriving DecidableEq, Repr

/-- The lines of a text, split at each line feed (log 19). -/
def splitLines : List Char → List (List Char)
  | [] => [[]]
  | c :: cs =>
    match splitLines cs with
    | [] => [[c]]
    | l :: ls => if c = '\n' then [] :: l :: ls else (c :: l) :: ls

/-- The white space that may surround a literal: spaces and tabs (30_encoding.md R95; log 19). -/
def isBlank (c : Char) : Bool := c = ' ' || c = '\t'

/-- A line without its `#` comment and its surrounding white space (30_encoding.md R94, R95). -/
def stripLine (l : List Char) : List Char :=
  (((l.takeWhile (· ≠ '#')).dropWhile isBlank).reverse.dropWhile isBlank).reverse

/-- The value of a binary literal, leftmost digit most significant (30_encoding.md R94; log 19). -/
def binaryValue (l : List Char) : Nat :=
  l.foldl (fun n c => 2 * n + (if c = '1' then 1 else 0)) 0

/-- The bytes of one line: none for a blank or comment-only line, one for a literal (30_encoding.md R94, R95). -/
def parseLine (l : List Char) : Except LoadError (List Byte) :=
  let t := stripLine l
  if t = [] then .ok []
  else if t.length = 8 ∧ t.all (fun c => c = '0' || c = '1') then .ok [BitVec.ofNat 8 (binaryValue t)]
  else .error (.malformedLine l)

/-- The bytes of a list of lines in file order, or the first failure (30_encoding.md R94, R95). -/
def parseLines : List (List Char) → Except LoadError (List Byte)
  | [] => .ok []
  | l :: ls =>
    match parseLine l, parseLines ls with
    | .error e, _ => .error e
    | .ok _, .error e => .error e
    | .ok bs, .ok rest => .ok (bs ++ rest)

/-- The line of program text for a byte: its eight binary digits, bit 7 first, and a line feed (30_encoding.md R94, R96). -/
def binaryLine (b : Byte) : List Char :=
  [7, 6, 5, 4, 3, 2, 1, 0].map (fun k => if b.getLsbD k then '1' else '0') ++ ['\n']

/-- `loadProgram(text)` (30_encoding.md R94). -/
def loadProgram (text : List Char) : Except LoadError (List Byte) := parseLines (splitLines text)

/-- The line the sink writes for a printed value: its decimal digits, no sign, no leading zero (41_system_io.md R131). -/
def sinkLine (v : Byte) : List Char :=
  let digit (n : Nat) : Char := Char.ofNat ('0'.toNat + n)
  let n := v.toNat
  if n < 10 then [digit n]
  else if n < 100 then [digit (n / 10), digit (n % 10)]
  else [digit (n / 100), digit (n / 10 % 10), digit (n % 10)]

end Sys2Proof.Machine
end

