-- ==== Sys2Proof/Machine/HostInterface.lean ====
section
/-! DEFINITION. The events of the block's interfaces that are not steps of the engine: reset, load, status
(70_reset_and_hazards.md R240 to R253). -/

namespace Sys2Proof.Machine

/-- `Reset`: every piece of state to its reset value, whatever it held (70_reset_and_hazards.md R240). The only way out of
HALTED and FAULTED. -/
def State.hostReset (_ : State) : State := State.reset

/-- `Launch(P)`: the state a run starts from, or the host's refusal of an image that does not fit
(70_reset_and_hazards.md R246, R247; log 20). -/
def launch (image : List Byte) : Except LoadError State :=
  if image.length ≤ Config.memSize then
    .ok { State.reset with mem := State.reset.mem.writeImage Config.loadBase image }
  else .error (.imageTooLong image.length)

/-- From program text to the launch state (70_reset_and_hazards.md R245; 30_encoding.md R94). -/
def launchText (text : List Char) : Except LoadError State :=
  match loadProgram text with
  | .ok image => launch image
  | .error e => .error e

/-- The end status: 0 when HALTED, the cause when FAULTED, none while RUNNING (10_state.md R36; 60_exceptions.md R210). -/
def State.endStatus (s : State) : Option (BitVec 3) :=
  match s.run with
  | .running => none
  | .halted => some 0
  | .faulted => some s.faultCause

/-- The fault report the status interface shows: address and data, only when FAULTED (70_reset_and_hazards.md R251). -/
def State.faultReport (s : State) : Option (Byte × Byte) :=
  match s.run with
  | .faulted => some (s.faultAddr, s.faultData)
  | _ => none

end Sys2Proof.Machine
end

