-- ==== Sys2Proof/Safety.lean ====
section
/-! DEFINITION. What claims use: good ends and runs, the invariant of the state, the tables of 10_state.md R22 and R27,
and the spec's own pseudocode of a step (40_cycle.md R117) written out a second time over plain records. -/

namespace Sys2Proof

/-- The register of a legal index operand, as a list: what R22's tables need. -/
def regsNamed (b : Byte) : List Reg := (Machine.regOf b).toList

/-- The registers an instruction reads (10_state.md R22, column "reads"; a conditional jump reads `x[a]` when taken). -/
def Instr.readRegs (s : Machine.State) : Instr → List Reg
  | .hlt | .ldi _ _ => []
  | .prn a | .jmp a => regsNamed a
  | .jeq a => if s.flagE then regsNamed a else []
  | .jne a => if s.flagE then [] else regsNamed a
  | .add a b | .mul a b | .cmp a b | .st a b => regsNamed a ++ regsNamed b
  | .push a | .call a => Config.spIndex :: regsNamed a
  | .pop _ | .ret => [Config.spIndex]

/-- The registers an instruction writes (10_state.md R22, column "writes"). -/
def Instr.writtenRegs : Instr → List Reg
  | .hlt | .prn _ | .cmp _ _ | .jmp _ | .jeq _ | .jne _ | .st _ _ => []
  | .ldi a _ | .add a _ | .mul a _ => regsNamed a
  | .push _ | .call _ | .ret => [Config.spIndex]
  | .pop a => regsNamed a ++ [Config.spIndex]

/-- PUSH and CALL need a stack slot: `x[6]` not 0x00 (40_cycle.md R115). Every other instruction needs none. -/
def Instr.hasStackRoom (i : Instr) (s : Machine.State) : Prop :=
  (i.mnemonic = .push ∨ i.mnemonic = .call) → s.sp ≠ 0x00

namespace Machine

/-- The end of a run (70_reset_and_hazards.md R253). -/
abbrev State.ended (s : State) : Prop := s.run ≠ .running

/-- A good end: HALTED, and only that (70_reset_and_hazards.md R253; 60_exceptions.md R210). -/
abbrev State.goodEnd (s : State) : Prop := s.run = .halted

/-- The fault registers say what 10_state.md R34 and 60_exceptions.md R200 say: all zero unless FAULTED; when FAULTED the
cause is 1, 3 or 4, the address is that of the faulting instruction, which `pc` still holds (R209), and the data is the
opcode byte still in memory (cause 1), an index above 7 (cause 3), or 0 (cause 4). -/
abbrev State.faultRegsOk (s : State) : Prop :=
  (s.run ≠ .faulted ∧ s.faultCause = 0 ∧ s.faultAddr = 0 ∧ s.faultData = 0) ∨
  (s.run = .faulted ∧ s.faultAddr = s.pc ∧
    ((s.faultCause = FaultCause.unknownOpcode.code ∧ s.faultData = s.load s.pc) ∨
     (s.faultCause = FaultCause.invalidRegisterIndex.code ∧ 7 < s.faultData.toNat) ∨
     (s.faultCause = FaultCause.stackOverflow.code ∧ s.faultData = 0 ∧ s.sp = 0)))

/-- The invariant of the machine: memory is in canonical form, `FL` is one of its four legal values, and the fault
registers agree with the run state. -/
abbrev State.Inv (s : State) : Prop := s.mem.wf ∧ legalFl s.fl ∧ s.faultRegsOk

/-- The next fetch sees `v` at the address `x`, if `x` is one of the three addresses it reads (20_memory.md R63). -/
abbrev State.fetchSees (t : State) (x v : Byte) : Prop :=
  (x = t.pc → t.fetch.op = v) ∧ (x = t.pc + 1 → t.fetch.opA = v) ∧ (x = t.pc + 2 → t.fetch.opB = v)

/-- The states a run visits, under any opcode map. -/
inductive Reaches (map : OpcodeMap) : State → State → Prop
  | refl (s : State) : Reaches map s s
  | next {s t u : State} : Reaches map s t → cycle map t = .next u → Reaches map s u

/-- A sequence of instructions executed one after the other, each from the state the one before it left; nothing if one of
them does not answer a next state. It leaves fetching aside: claims about nesting are stated with it. -/
def execAll : List Instr → State → Option State
  | [], s => some s
  | i :: is, s =>
    match exec i s with
    | .next t => execAll is t
    | _ => none

/-- One step of the engine, defined when `run` is RUNNING: the pseudocode of 40_cycle.md R117 line by line, over raw bytes,
sharing no definition with the decoder, the operand checks or the meanings. `x i` is `x[i]`, `set i v` is the register
file after `x[i] <- v`. -/
def specStep (map : OpcodeMap) (s : State) : State :=
  let op := s.mem.read s.pc
  let opA := s.mem.read (s.pc + 1)
  let opB := s.mem.read (s.pc + 2)
  let is (m : Mnemonic) : Bool := op == map.byteOf m
  let x (b : Byte) : Byte := s.regs.toList.getD b.toNat 0
  let set (b v : Byte) : Vector Byte 8 := s.regs.setIfInBounds b.toNat v
  let raise (code : BitVec 3) (info : Byte) : State :=
    { s with run := .faulted, faultCause := code, faultAddr := s.pc, faultData := info }
  let known := is .hlt || is .ldi || is .prn || is .add || is .mul || is .cmp || is .push || is .pop || is .call ||
    is .ret || is .jmp || is .jeq || is .jne || is .st
  let usesA := known && !(is .hlt || is .ret)
  let usesB := is .add || is .mul || is .cmp || is .st
  if !known then raise 1 op
  else if usesA && 7 < opA.toNat then raise 3 opA
  else if usesB && 7 < opB.toNat then raise 3 opB
  else if (is .push || is .call) && x 6 == 0x00 then raise 4 0x00
  else if is .hlt then { s with run := .halted, pc := s.pc + 1 }
  else if is .ldi then { s with regs := set opA opB, pc := s.pc + 3 }
  else if is .prn then { s with out := s.out ++ [x opA], pc := s.pc + 2 }
  else if is .add then { s with regs := set opA (x opA + x opB), pc := s.pc + 3 }
  else if is .mul then { s with regs := set opA (x opA * x opB), pc := s.pc + 3 }
  else if is .cmp then
    { s with
      fl := if (x opA).toNat < (x opB).toNat then 0b100 else if (x opA).toNat > (x opB).toNat then 0b010 else 0b001
      pc := s.pc + 3 }
  else if is .push then
    let regs' := set 6 (x 6 - 1)
    { s with regs := regs', mem := s.mem.write (x 6 - 1) (regs'.toList.getD opA.toNat 0), pc := s.pc + 2 }
  else if is .pop then
    let regs' := set opA (s.mem.read (x 6))
    { s with regs := regs'.setIfInBounds 6 (regs'.toList.getD 6 0 + 1), pc := s.pc + 2 }
  else if is .call then
    let regs' := set 6 (x 6 - 1)
    { s with regs := regs', mem := s.mem.write (x 6 - 1) (s.pc + 2), pc := regs'.toList.getD opA.toNat 0 }
  else if is .ret then { s with regs := set 6 (x 6 + 1), pc := s.mem.read (x 6) }
  else if is .jmp then { s with pc := x opA }
  else if is .jeq then { s with pc := if s.fl.getLsbD 0 = true then x opA else s.pc + 2 }
  else if is .jne then { s with pc := if s.fl.getLsbD 0 = false then x opA else s.pc + 2 }
  else { s with mem := s.mem.write (x opA) (x opB), pc := s.pc + 3 }

end Machine

end Sys2Proof
end

