-- ==== Sys2Proof/Certificates/Slice0/Obligations.lean ====
section
/-! DEFINITION. The statements for the provers. Each docstring names the rule or section of spec/ it formalises. Where a
statement holds under every opcode map, it quantifies over the map (00_scope.md R7). -/

open Sys2Proof Sys2Proof.Machine

/-! ## Decoding and the cycle -/

/-- Words written out from the table of 30_encoding.md R88 (log 1: the byte values are general knowledge), numbered as
spec/opcode_table.json numbers them, decode to the instructions they stand for; 0x00, 0x83 and 0xFF are no opcodes. -/
def Obligations.SpecWordsDecode : Prop :=
  decodeTableWord 8 0x01 = some .hlt ∧ decodeTableWord 24 0x080082 = some (.ldi 0 8) ∧
  decodeTableWord 16 0x0647 = some (.prn 6) ∧ decodeTableWord 24 0x0100A0 = some (.add 0 1) ∧
  decodeTableWord 24 0x0100A7 = some (.cmp 0 1) ∧ decodeTableWord 16 0x0045 = some (.push 0) ∧
  decodeTableWord 16 0x0246 = some (.pop 2) ∧ decodeTableWord 16 0x0150 = some (.call 1) ∧
  decodeTableWord 8 0x11 = some .ret ∧ decodeTableWord 16 0x0356 = some (.jne 3) ∧
  decodeTableWord 24 0x010084 = some (.st 0 1) ∧ decodeTableWord 8 0x00 = none ∧
  decodeTableWord 24 0x010083 = none ∧ decodeTableWord 8 0xFF = none

/-- Under the default map exactly the fourteen bytes of 30_encoding.md R88 decode, and the other 242 are unknown (R89). -/
def Obligations.DefaultOpcodesAreTheFourteen : Prop :=
  (∀ op opA opB : Byte, (∃ i, decode defaultOpcodeMap op opA opB = .ok i) ↔
    op ∈ ([0x01, 0x82, 0x47, 0xA0, 0xA2, 0xA7, 0x45, 0x46, 0x50, 0x11, 0x54, 0x55, 0x56, 0x84] : List Byte)) ∧
  ((List.range 256).filter (fun n => (defaultOpcodeMap.lookup (BitVec.ofNat 8 n)).isNone)).length = 242

/-- Decoding an encoded instruction gives it back and leaves the bytes after it, for every instruction, every operand byte
and every opcode map (30_encoding.md R80 to R82, R84). -/
def Obligations.DecodeOfEncodeIsIdentity : Prop :=
  ∀ (map : OpcodeMap) (i : Instr) (rest : List Byte), decodeBytes map (encode map i ++ rest) = .ok (i, rest)

/-- Each byte sequence has one reading: what decodes to an instruction is that instruction's encoding and the rest
(30_encoding.md R82, R90). -/
def Obligations.DecodedBytesAreTheEncoding : Prop :=
  ∀ (map : OpcodeMap) (bytes rest : List Byte) (i : Instr),
    decodeBytes map bytes = .ok (i, rest) → bytes = encode map i ++ rest

/-- When the bytes at the program counter decode to an instruction, a step of the RUNNING engine is that instruction's
meaning at that state, and nothing else (40_cycle.md R110 to R113). -/
def Obligations.StepRunsTheDecodedInstruction : Prop :=
  ∀ (s : State) (i : Instr), s.run = .running →
    decode defaultOpcodeMap (s.load s.pc) (s.load (s.pc + 1)) (s.load (s.pc + 2)) = .ok i →
    step s = exec i s

/-- When memory holds the encoding of an instruction from the program counter on, modulo 256, the cycle executes it,
whatever the bytes after it are (40_cycle.md R111; 20_memory.md R55; 30_encoding.md R84). -/
def Obligations.EncodedInstructionAtPcRuns : Prop :=
  ∀ (map : OpcodeMap) (s : State) (i : Instr), s.run = .running →
    (∀ k (h : k < (encode map i).length), s.load (s.pc + BitVec.ofNat 8 k) = (encode map i)[k]) →
    cycle map s = exec i s

/-- A byte that is no mnemonic's enters UnknownOpcode with its address and its value, and nothing else changes
(60_exceptions.md R201, R208; decision D4, log 10). -/
def Obligations.UnknownOpcodeFaults : Prop :=
  ∀ (map : OpcodeMap) (s : State), s.run = .running → (∀ m, map.byteOf m ≠ s.load s.pc) →
    cycle map s = .next { s with run := .faulted, faultCause := 1, faultAddr := s.pc, faultData := s.load s.pc }

/-- Under the default map a zero cell is no opcode: a RUNNING engine that reaches one enters UnknownOpcode, so the run of an
empty image ends at address 0 (20_memory.md R67; 70_reset_and_hazards.md R246; log 1). -/
def Obligations.ZeroCellStopsTheRun : Prop :=
  (∀ s : State, s.run = .running → s.load s.pc = 0 →
    step s = .next { s with run := .faulted, faultCause := 1, faultAddr := s.pc, faultData := 0 }) ∧
  ∃ s, launch [] = .ok s ∧
    step s = .next { s with run := .faulted, faultCause := 1, faultAddr := 0, faultData := 0 }

/-- A HALTED or FAULTED engine has no step (40_cycle.md R110). That the model answers a fault there is its own choice (log 4). -/
def Obligations.StoppedEngineHasNoStep : Prop :=
  ∀ (map : OpcodeMap) (s : State),
    (s.run = .halted → cycle map s = .fault .engineHalted) ∧ (s.run = .faulted → cycle map s = .fault .engineFaulted)

/-- A RUNNING engine always has a step: no memory access faults or stalls and no instruction is without a meaning
(20_memory.md R65; 40_cycle.md R110). A step exists only while RUNNING. -/
def Obligations.RunningEngineAlwaysSteps : Prop :=
  ∀ (map : OpcodeMap) (s : State), s.run = .running ↔ ∃ t, cycle map s = .next t

/-- The cycle is the pseudocode of 40_cycle.md R117, written out a second time over raw bytes as `specStep`. A raise answers a
next state (log 5, the model's reading), and the arms hold what the spec marks as its own decisions: modulo 256 (log 9), the
four raises and their order (logs 10 to 13 and 17), POP and RET without a check (log 14), `pc` after HLT (D11, log 15),
register 6 in PUSH, POP and CALL (D17, log 16), and an Emit that succeeds (log 6). -/
def Obligations.CycleIsThePseudocode : Prop :=
  ∀ (map : OpcodeMap) (s : State), s.run = .running → cycle map s = .next (specStep map s)

/-! ## Reset, load, memory -/

/-- The state after reset, from whatever state (70_reset_and_hazards.md R240, R241; 10_state.md R24; `FL` at reset is log 2). -/
def Obligations.ResetState : Prop :=
  ∀ s : State, s.hostReset = State.reset ∧
    (∀ r : Reg, State.reset.reg r = if r = 6 then 0xF4 else 0x00) ∧ State.reset.pc = 0 ∧ State.reset.fl = 0b000 ∧
    (∀ a : Byte, State.reset.load a = 0) ∧ State.reset.run = .running ∧ State.reset.faultCause = 0 ∧
    State.reset.faultAddr = 0 ∧ State.reset.faultData = 0 ∧ State.reset.out = []

/-- The launch state: byte `i` of the image in cell `i`, zero above it, every other field as after reset; an image of more
than 256 bytes is refused (70_reset_and_hazards.md R246, R247; the refusal is the spec's own decision D13, log 20). The clause
`s.mem.wf`, memory in canonical form, is no rule of the spec: the form is the model's own choice (log 3). -/
def Obligations.LaunchPlacesTheImage : Prop :=
  ∀ image : List Byte,
    (image.length ≤ 256 → ∃ s, launch image = .ok s ∧ s = { State.reset with mem := s.mem } ∧ s.mem.wf ∧
      (∀ k (h : k < image.length), s.load (BitVec.ofNat 8 k) = image[k]) ∧
      (∀ a : Byte, image.length ≤ a.toNat → s.load a = 0)) ∧
    (256 < image.length → launch image = .error (.imageTooLong image.length))

/-- After any sequence of writes, a read of a cell gives the value of the last write to it, or what the cell held before the
sequence if none of them wrote it (20_memory.md R51). -/
def Obligations.ReadReturnsTheLastWrite : Prop :=
  ∀ (m : Memory) (writes : List (Byte × Byte)) (a : Byte),
    (writes.foldl (fun m w => m.write w.1 w.2) m).read a = (writes.reverse.lookup a).getD (m.read a)

/-- The canonical form is canonical: two memories in it that read the same at every address are the same list
(20_memory.md R50, R51; log 3: the form is the model's own choice). -/
def Obligations.CanonicalMemoryIsUnique : Prop :=
  ∀ m n : Memory, m.wf → n.wf → (∀ a : Byte, m.read a = n.read a) → m = n

/-- The loader reads back the program text of every image: one line of eight binary digits a byte (30_encoding.md R94). -/
def Obligations.LoaderReadsBinaryText : Prop :=
  ∀ image : List Byte, loadProgram (image.flatMap binaryLine) = .ok image

/-- One malformed line anywhere makes the load fail: a line that, after comment and white space are stripped, is neither
empty nor eight binary digits (30_encoding.md R95; what counts as white space and as a line end is log 19). -/
def Obligations.MalformedLineRefusesTheLoad : Prop :=
  ∀ (lines : List (List Char)) (l : List Char), l ∈ lines → stripLine l ≠ [] →
    ¬((stripLine l).length = 8 ∧ ∀ c ∈ stripLine l, c = '0' ∨ c = '1') → ∃ e, parseLines lines = .error e

/-! ## What each instruction does: its whole next state, so its result, its frame and where it completes -/

/-- HLT completes in every state (41_system_io.md R130; the advance of `pc` is the spec's own decision D11, log 15). -/
def Obligations.HltResult : Prop :=
  ∀ s : State, exec .hlt s = .next { s with run := .halted, pc := s.pc + 1 }

/-- PRN completes whenever its operand is a register index (41_system_io.md R131; log 6). -/
def Obligations.PrnResult : Prop :=
  ∀ (s : State) (a : Byte) (ha : a.toNat < 8),
    exec (.prn a) s = .next { s with out := s.out ++ [s.regs[a.toNat]], pc := s.pc + 2 }

/-- LDI completes whenever its first operand is a register index, for every literal (42_data_movement.md R140). -/
def Obligations.LdiResult : Prop :=
  ∀ (s : State) (a imm : Byte) (ha : a.toNat < 8),
    exec (.ldi a imm) s = .next { s with regs := s.regs.set a.toNat imm, pc := s.pc + 3 }

/-- ST completes whenever its operands are register indices: the cell at `x[a]` becomes `x[b]` (42_data_movement.md R141). -/
def Obligations.StResult : Prop :=
  ∀ (s : State) (a b : Byte) (ha : a.toNat < 8) (hb : b.toNat < 8),
    exec (.st a b) s = .next { s with mem := s.mem.write s.regs[a.toNat] s.regs[b.toNat], pc := s.pc + 3 }

/-- ADD and MUL complete whenever their operands are register indices: the first register becomes the exact sum or product
reduced modulo 256, and nothing else but `pc` changes, `FL` not either (43_alu.md R153, R154, R156, R158). -/
def Obligations.AddMulResult : Prop :=
  ∀ (s : State) (a b : Byte) (ha : a.toNat < 8) (hb : b.toNat < 8),
    (∃ v : Byte, v.toNat = (s.regs[a.toNat].toNat + s.regs[b.toNat].toNat) % 256 ∧
      exec (.add a b) s = .next { s with regs := s.regs.set a.toNat v, pc := s.pc + 3 }) ∧
    (∃ v : Byte, v.toNat = (s.regs[a.toNat].toNat * s.regs[b.toNat].toNat) % 256 ∧
      exec (.mul a b) s = .next { s with regs := s.regs.set a.toNat v, pc := s.pc + 3 })

/-- CMP completes whenever its operands are register indices: `FL` becomes LESS_THAN, GREATER_THAN or EQUAL by the unsigned
order of the two values, and nothing else but `pc` changes (43_alu.md R155). -/
def Obligations.CmpResult : Prop :=
  ∀ (s : State) (a b : Byte) (ha : a.toNat < 8) (hb : b.toNat < 8), ∃ f : BitVec 3,
    exec (.cmp a b) s = .next { s with fl := f, pc := s.pc + 3 } ∧
    (s.regs[a.toNat].toNat < s.regs[b.toNat].toNat → f = 0b100) ∧
    (s.regs[b.toNat].toNat < s.regs[a.toNat].toNat → f = 0b010) ∧
    (s.regs[a.toNat] = s.regs[b.toNat] → f = 0b001)

/-- PUSH completes whenever its operand is a register index and SP is not 0x00: SP goes down by one and the cell at the new
SP becomes `x[a]`, read after the decrement (44_stack.md R170; for `PUSH R6` R173, decision D17, log 16). -/
def Obligations.PushResult : Prop :=
  ∀ (s : State) (a : Byte) (ha : a.toNat < 8), s.sp ≠ 0 →
    exec (.push a) s = .next
      { s with
        regs := s.regs.set 6 (s.sp - 1)
        mem := s.mem.write (s.sp - 1) (if a = 6 then s.sp - 1 else s.regs[a.toNat])
        pc := s.pc + 2 }

/-- POP completes whenever its operand is a register index: `x[a]` becomes the cell at SP, then SP goes up by one modulo 256
(44_stack.md R171, R173; decisions D8 and D17, logs 14 and 16). -/
def Obligations.PopResult : Prop :=
  ∀ (s : State) (a : Byte) (ha : a.toNat < 8),
    exec (.pop a) s = .next
      { s with
        regs := (s.regs.set a.toNat (s.load s.sp)).set 6 ((if a = 6 then s.load s.sp else s.sp) + 1)
        pc := s.pc + 2 }

/-- CALL completes whenever its operand is a register index and SP is not 0x00: SP goes down by one, the cell at the new SP
becomes the return address `pc +8 2`, and `pc` becomes `x[a]`, read after the decrement (45_control_transfer.md R180, R181;
log 16). -/
def Obligations.CallResult : Prop :=
  ∀ (s : State) (a : Byte) (ha : a.toNat < 8), s.sp ≠ 0 →
    exec (.call a) s = .next
      { s with
        regs := s.regs.set 6 (s.sp - 1)
        mem := s.mem.write (s.sp - 1) (s.pc + 2)
        pc := if a = 6 then s.sp - 1 else s.regs[a.toNat] }

/-- RET completes in every state: `pc` becomes the cell at SP, and SP goes up by one modulo 256 (45_control_transfer.md R182;
log 14). -/
def Obligations.RetResult : Prop :=
  ∀ s : State, exec .ret s = .next { s with regs := s.regs.set 6 (s.sp + 1), pc := s.load s.sp }

/-- JMP, JEQ and JNE complete whenever their operand is a register index: JMP goes to `x[a]`, JEQ does so when `FL.E` is 1 and
JNE when it is 0, and the untaken forms advance past the operand byte (45_control_transfer.md R184 to R187). -/
def Obligations.JumpResults : Prop :=
  ∀ (s : State) (a : Byte) (ha : a.toNat < 8),
    exec (.jmp a) s = .next { s with pc := s.regs[a.toNat] } ∧
    (s.fl.getLsbD 0 = true → exec (.jeq a) s = .next { s with pc := s.regs[a.toNat] } ∧
      exec (.jne a) s = .next { s with pc := s.pc + 2 }) ∧
    (s.fl.getLsbD 0 = false → exec (.jeq a) s = .next { s with pc := s.pc + 2 } ∧
      exec (.jne a) s = .next { s with pc := s.regs[a.toNat] })

/-! ## Where an instruction faults -/

/-- A register-index operand above 7 enters InvalidRegisterIndex with that byte, `opA` before `opB`, whatever else holds (an
untaken jump and an SP of 0x00 included), and nothing else changes (40_cycle.md R114, R116; 60_exceptions.md R202, R208;
decisions D6, D24 and D25, logs 12 and 17). -/
def Obligations.InvalidRegisterIndexFaults : Prop :=
  (∀ (s : State) (a b : Byte), 7 < a.toNat →
    ∀ i ∈ ([.ldi a b, .prn a, .add a b, .mul a b, .cmp a b, .push a, .pop a, .call a, .jmp a, .jeq a, .jne a, .st a b] :
        List Instr),
      exec i s = .next { s with run := .faulted, faultCause := 3, faultAddr := s.pc, faultData := a }) ∧
  (∀ (s : State) (a b : Byte), a.toNat < 8 → 7 < b.toNat →
    ∀ i ∈ ([.add a b, .mul a b, .cmp a b, .st a b] : List Instr),
      exec i s = .next { s with run := .faulted, faultCause := 3, faultAddr := s.pc, faultData := b })

/-- PUSH and CALL with a legal operand and SP at 0x00 enter StackOverflow, and nothing else changes: SP does not wrap
(40_cycle.md R115; 60_exceptions.md R204, R208; 44_stack.md R172; decision D7, log 13). -/
def Obligations.StackOverflowFaults : Prop :=
  ∀ (s : State) (a : Byte), a.toNat < 8 → s.sp = 0 → ∀ i ∈ ([.push a, .call a] : List Instr),
    exec i s = .next { s with run := .faulted, faultCause := 4, faultAddr := s.pc, faultData := 0 }

/-- An instruction with legal operands and, for PUSH and CALL, room on the stack enters no fault: no overflow, wrap, empty
stack, store over code or jump target is one (60_exceptions.md R206). -/
def Obligations.WellFormedInstructionsComplete : Prop :=
  ∀ (i : Instr) (s : State), i.wf = true → i.hasStackRoom s → s.run = .running →
    ∃ t, exec i s = .next t ∧ t.run ≠ .faulted ∧ t.faultCause = s.faultCause ∧ t.faultAddr = s.faultAddr ∧
      t.faultData = s.faultData

/-- Faults are precise: a step that leaves the engine FAULTED changed `run` and the fault registers and nothing else, recorded
the instruction's own address, and recorded cause 1, 3 or 4, never 2 or an unused code (40_cycle.md R116; 60_exceptions.md
R200, R203, R208, R209; decisions D5, D16 and D23, logs 11, 17 and 18). -/
def Obligations.FaultsArePrecise : Prop :=
  ∀ (map : OpcodeMap) (s t : State), cycle map s = .next t → t.run = .faulted →
    t = { s with run := .faulted, faultCause := t.faultCause, faultAddr := s.pc, faultData := t.faultData } ∧
    (t.faultCause = 1 ∨ t.faultCause = 3 ∨ t.faultCause = 4)

/-! ## Frames and rules over all instructions -/

/-- No instruction reads or writes a register outside its columns of 10_state.md R22: at most those. (That the registers in the
columns are read and written is `RegistersOfTheTableMatter`.) A register an instruction does not write keeps its value, and the value of a register it does not read has no influence on it: changing that register beforehand changes the
next state in that register alone, or not at all if the instruction writes it. -/
def Obligations.RegistersReadAndWritten : Prop :=
  ∀ (i : Instr) (s t : State), i.wf = true → exec i s = .next t →
    (∀ r : Reg, r ∉ i.writtenRegs → t.reg r = s.reg r) ∧
    (∀ (r : Reg) (v : Byte), r ∉ i.readRegs s →
      exec i (s.setReg r v) = .next (if r ∈ i.writtenRegs then t else t.setReg r v))

/-- CMP alone writes `FL`, all three bits, whatever they were; JEQ and JNE alone read it, and only `FL.E`: for any other
instruction another `FL` beforehand is the same `FL` afterwards, or for CMP no difference, and nothing else differs
(10_state.md R30). -/
def Obligations.FlagsReadAndWritten : Prop :=
  ∀ (i : Instr) (s t : State) (f : BitVec 3), exec i s = .next t →
    ((∀ a b, i ≠ .cmp a b) → t.fl = s.fl) ∧
    (∀ a b, i = .cmp a b → i.wf = true →
      (t.fl = 0b100 ∨ t.fl = 0b010 ∨ t.fl = 0b001) ∧ exec i { s with fl := f } = .next t) ∧
    ((∀ a b, i ≠ .cmp a b) → ((∀ a, i ≠ .jeq a ∧ i ≠ .jne a) ∨ f.getLsbD 0 = s.fl.getLsbD 0) →
      exec i { s with fl := f } = .next { t with fl := f })

/-- PRN alone appends to `out`, one value, and only at the end; no instruction reads `out` (10_state.md R38;
41_system_io.md R131; log 6). -/
def Obligations.OutputReadAndWritten : Prop :=
  ∀ (i : Instr) (s t : State) (o : List Byte), exec i s = .next t →
    ((∀ a, i ≠ .prn a) → t.out = s.out ∧ exec i { s with out := o } = .next { t with out := o }) ∧
    (∀ (a : Byte) (ha : a.toNat < 8), i = .prn a →
      t.out = s.out ++ [s.regs[a.toNat]] ∧ exec i { s with out := o } = .next { t with out := o ++ [s.regs[a.toNat]] })

/-- HLT alone changes the run state, other than by a fault entry, and no instruction writes a fault register other than by
one (60_exceptions.md R218; 10_state.md R33, R34). -/
def Obligations.RunStateChanges : Prop :=
  ∀ (i : Instr) (s t : State), exec i s = .next t →
    (i = .hlt ∧ t.run = .halted ∧ t.faultCause = s.faultCause ∧ t.faultAddr = s.faultAddr ∧ t.faultData = s.faultData) ∨
    (i ≠ .hlt ∧ t.run = s.run ∧ t.faultCause = s.faultCause ∧ t.faultAddr = s.faultAddr ∧ t.faultData = s.faultData) ∨
    (i ≠ .hlt ∧ t.run = .faulted ∧ t.faultAddr = s.pc ∧ (i.wf = false ∨ ¬ i.hasStackRoom s))

/-- Memory's frame: ST changes at most the cell at `x[a]`, PUSH and CALL at most the cell below SP, and every other
instruction none; an instruction that faults changes none (20_memory.md R58; 42_data_movement.md R141; 44_stack.md R170;
45_control_transfer.md R180). -/
def Obligations.MemoryFrame : Prop :=
  (∀ (s t : State) (a b : Byte) (ha : a.toNat < 8), exec (.st a b) s = .next t →
    ∀ x : Byte, x ≠ s.regs[a.toNat] → t.load x = s.load x) ∧
  (∀ (s t : State) (a : Byte) (i : Instr), i = .push a ∨ i = .call a → exec i s = .next t →
    ∀ x : Byte, x ≠ s.sp - 1 → t.load x = s.load x) ∧
  (∀ (s t : State) (i : Instr), (∀ a b, i ≠ .st a b) → (∀ a, i ≠ .push a ∧ i ≠ .call a) → exec i s = .next t →
    ∀ x : Byte, t.load x = s.load x) ∧
  (∀ (s t : State) (i : Instr), i.wf = false ∨ ¬ i.hasStackRoom s → exec i s = .next t →
    ∀ x : Byte, t.load x = s.load x)

/-- The program counter after each instruction: the default advance by one and the operand count for the nine instructions
that rely on it (40_cycle.md R113), the instruction's own target for the other five (10_state.md R27;
45_control_transfer.md R180, R182, R184 to R186). Two of these are the spec's own decisions: HLT's advance (41_system_io.md
R130, D11, log 15), and CALL's target read after the decrement of SP (45_control_transfer.md R181, D17, log 16). -/
def Obligations.ProgramCounterAfterEachInstruction : Prop :=
  ∀ (i : Instr) (s t : State), i.wf = true → i.hasStackRoom s → exec i s = .next t →
    match i with
    | .call a => ∀ ha : a.toNat < 8, t.pc = (s.regs.set 6 (s.sp - 1))[a.toNat]
    | .ret => t.pc = s.load s.sp
    | .jmp a => ∀ ha : a.toNat < 8, t.pc = s.regs[a.toNat]
    | .jeq a => ∀ ha : a.toNat < 8, t.pc = if s.fl.getLsbD 0 then s.regs[a.toNat] else s.pc + 2
    | .jne a => ∀ ha : a.toNat < 8, t.pc = if s.fl.getLsbD 0 then s.pc + 2 else s.regs[a.toNat]
    | i => t.pc = s.pc + BitVec.ofNat 8 (1 + i.mnemonic.operandCount)

/-! ## Properties of sequences -/

/-- PUSH of one register, then POP to another or the same, neither of them register 6: the value is copied (or restored), SP
is back, and every other register is as it was (44_stack.md R174). -/
def Obligations.PushThenPopCopies : Prop :=
  ∀ (s : State) (a b : Byte) (ha : a.toNat < 8) (hb : b.toNat < 8), a ≠ 6 → b ≠ 6 → s.sp ≠ 0 →
    ∃ t, execAll [.push a, .pop b] s = some t ∧ t.regs = s.regs.set b.toNat s.regs[a.toNat]

/-- The forms that name register 6: `PUSH R6` stores the decremented SP, `POP R6` ends at the popped value plus one, the two in
sequence leave SP as it was, and `CALL R6` goes to the cell that holds its return address (44_stack.md R173;
45_control_transfer.md R181; decision D17, log 16). -/
def Obligations.RegisterSixAsOperand : Prop :=
  ∀ s : State,
    (s.sp ≠ 0 → ∃ t, exec (.push 6) s = .next t ∧ t.sp = s.sp - 1 ∧ t.load t.sp = t.sp) ∧
    (∃ t, exec (.pop 6) s = .next t ∧ t.sp = s.load s.sp + 1) ∧
    (s.sp ≠ 0 → ∃ t, execAll [.push 6, .pop 6] s = some t ∧ t.sp = s.sp) ∧
    (s.sp ≠ 0 → ∃ t, exec (.call 6) s = .next t ∧ t.pc = t.sp ∧ t.load t.pc = s.pc + 2)

/-- A CALL, and later a RET in any state that has the SP and the stacked byte the CALL left: execution resumes after the
CALL's operand byte, with SP as before the CALL (45_control_transfer.md R183). -/
def Obligations.CallThenReturnResumes : Prop :=
  ∀ (s u v : State) (a : Byte), a.toNat < 8 → s.sp ≠ 0 → exec (.call a) s = .next u →
    v.sp = u.sp → v.load v.sp = u.load u.sp →
    ∃ t, exec .ret v = .next t ∧ t.pc = s.pc + 2 ∧ t.sp = s.sp

/-- Nested calls return in the reverse of their order: after as many calls as the stack has room for, and as many returns,
execution is at the first call's return address with SP as at the start (45_control_transfer.md R183; 44_stack.md R172). -/
def Obligations.NestedCallsReturnInReverse : Prop :=
  ∀ (s : State) (first : Byte) (others : List Byte), first.toNat < 8 → (∀ a ∈ others, a.toNat < 8) →
    others.length < s.sp.toNat →
    ∃ t, execAll ((first :: others).map .call ++ List.replicate (others.length + 1) .ret) s = some t ∧
      t.pc = s.pc + 2 ∧ t.sp = s.sp

/-- What ST, PUSH or CALL writes is seen by the next fetch, in each of the three bytes it reads (20_memory.md R63): the next
fetch is after the instruction for ST and PUSH, and at the target for CALL. PUSH and CALL write when SP is not 0x00; for
register 6 the value and the target are those of log 16 (D17). -/
def Obligations.StoreIsSeenByTheNextFetch : Prop :=
  ∀ s t : State,
    (∀ (a b : Byte) (ha : a.toNat < 8) (hb : b.toNat < 8), exec (.st a b) s = .next t →
      t.fetchSees s.regs[a.toNat] s.regs[b.toNat]) ∧
    (∀ (a : Byte) (ha : a.toNat < 8), s.sp ≠ 0 → exec (.push a) s = .next t →
      t.fetchSees (s.sp - 1) (if a = 6 then s.sp - 1 else s.regs[a.toNat])) ∧
    (∀ a : Byte, a.toNat < 8 → s.sp ≠ 0 → exec (.call a) s = .next t → t.fetchSees (s.sp - 1) (s.pc + 2))

/-! ## Invariants -/

/-- The reset state meets the invariant: memory canonical (log 3, the model's own choice of form), `FL` legal (log 2), fault
registers clear (10_state.md R40). -/
def Obligations.ResetMeetsInvariant : Prop := State.reset.Inv

/-- Every step keeps the invariant, under every opcode map: memory stays canonical (log 3), `FL` stays one of its four legal
values (10_state.md R29), and the fault registers stay zero until a fault and then say which, where and on what byte (R34;
60_exceptions.md R200, R209). -/
def Obligations.StepKeepsInvariant : Prop :=
  ∀ (map : OpcodeMap) (s t : State), s.Inv → cycle map s = .next t → t.Inv

/-- Every state of every run of every image meets the invariant (70_reset_and_hazards.md R247; 10_state.md R29, R34). Its part
on memory, the canonical form, is no rule of the spec: the form is the model's own choice (log 3). -/
def Obligations.EveryVisitedStateMeetsInvariant : Prop :=
  ∀ (map : OpcodeMap) (image : List Byte) (s t : State), launch image = .ok s → Reaches map s t → t.Inv

/-- HALTED and FAULTED are terminal: no run leaves such a state (10_state.md R33; 60_exceptions.md R211, R212). -/
def Obligations.StoppedStateIsFinal : Prop :=
  ∀ (map : OpcodeMap) (s t : State), s.ended → Reaches map s t → t = s

/-- Output only grows: what a run has printed stays, in order (10_state.md R38). -/
def Obligations.OutputOnlyGrows : Prop :=
  ∀ (map : OpcodeMap) (s t : State), Reaches map s t → s.out <+: t.out

/-- The end status of every state that meets the invariant: none while RUNNING, 0 when HALTED, the nonzero cause when FAULTED,
so that 0 is shown exactly at a good end (10_state.md R36; 60_exceptions.md R210). -/
def Obligations.EndStatusTellsGoodEnds : Prop :=
  ∀ s : State, s.Inv →
    (s.endStatus = none ↔ s.run = .running) ∧ (s.endStatus = some 0 ↔ s.goodEnd) ∧
    (s.run = .faulted → s.endStatus = some s.faultCause ∧ s.faultCause ≠ 0 ∧ s.faultReport = some (s.faultAddr, s.faultData))

/-! ## The columns of R22 are no empty promise -/

/-- The registers in the columns of 10_state.md R22 are read and written: for every legal instruction, each register of its
write column changes from some state, and for each register of its read column some state and some other value in it give
a next state that differs: in more than that register, or, where the instruction writes it (the first operand of ADD and MUL,
register 6 of PUSH, POP, CALL and RET), in that register or elsewhere. `CMP Ra, Ra` is the one form whose read no state can show, since it
gives EQUAL whatever `x[a]` is (43_alu.md R158). With `RegistersReadAndWritten` the columns are exact. -/
def Obligations.RegistersOfTheTableMatter : Prop :=
  ∀ i : Instr, i.wf = true →
    (∀ r ∈ i.writtenRegs, ∃ s t : State, exec i s = .next t ∧ t.reg r ≠ s.reg r) ∧
    ((∀ a, i ≠ .cmp a a) → ∀ (r : Reg) (s₀ : State), r ∈ i.readRegs s₀ →
      ∃ (s t : State) (v : Byte), r ∈ i.readRegs s ∧ exec i s = .next t ∧
        exec i (s.setReg r v) ≠ .next (if r ∈ i.writtenRegs then t else t.setReg r v))
end

