-- ==== Sys2Proof/Laws/Decode.lean ====
section
/-! SUPPORT. What a lookup in the opcode map answers, and what the cycle does with it. -/

namespace Sys2Proof

theorem Mnemonic.mem_all (m : Mnemonic) : m ∈ Mnemonic.all := by cases m <;> decide

/-- A lookup answers `m` exactly on the byte of `m`: the map is injective (00_scope.md R7). -/
theorem OpcodeMap.lookup_eq_some (map : OpcodeMap) (op : Byte) (m : Mnemonic) :
    map.lookup op = some m ↔ map.byteOf m = op := by
  constructor
  · intro h
    simpa using List.find?_some h
  · rintro rfl
    unfold OpcodeMap.lookup
    cases h : Mnemonic.all.find? (fun n => map.byteOf n == map.byteOf m) with
    | none => exact absurd (List.find?_eq_none.mp h m m.mem_all) (by simp)
    | some n => rw [map.injective n m (by simpa using List.find?_some h)]

@[simp] theorem OpcodeMap.lookup_byteOf (map : OpcodeMap) (m : Mnemonic) : map.lookup (map.byteOf m) = some m :=
  (map.lookup_eq_some _ m).mpr rfl

/-- A lookup answers nothing exactly on a byte that is no mnemonic's (30_encoding.md R89). -/
theorem OpcodeMap.lookup_eq_none (map : OpcodeMap) (op : Byte) : map.lookup op = none ↔ ∀ m, map.byteOf m ≠ op := by
  rw [Option.eq_none_iff_forall_ne_some]
  exact forall_congr' fun m => not_congr (map.lookup_eq_some op m)

theorem decode_of_lookup {map : OpcodeMap} {op : Byte} {m : Mnemonic} (h : map.lookup op = some m) (opA opB : Byte) :
    decode map op opA opB = .ok (m.withOperands opA opB) := by
  simp [decode, h]

theorem decode_of_unknown {map : OpcodeMap} {op : Byte} (h : map.lookup op = none) (opA opB : Byte) :
    decode map op opA opB = .error (.unknownOpcode op) := by
  simp [decode, h]

namespace Machine

theorem cycle_of_halted (map : OpcodeMap) {s : State} (h : s.run = .halted) : cycle map s = .fault .engineHalted := by
  simp [cycle, h]

theorem cycle_of_faulted (map : OpcodeMap) {s : State} (h : s.run = .faulted) : cycle map s = .fault .engineFaulted := by
  simp [cycle, h]

theorem cycle_of_running (map : OpcodeMap) {s : State} (h : s.run = .running) :
    cycle map s = runDecoded s (decode map s.fetch.op s.fetch.opA s.fetch.opB) := by
  simp [cycle, h]

/-- Everything a cycle that answers a next state can have done: it ran with the engine RUNNING, and either executed a
decoded instruction or entered `UnknownOpcode`. -/
theorem cycle_next_cases {map : OpcodeMap} {s t : State} (h : cycle map s = .next t) :
    s.run = .running ∧
      ((∃ i, decode map s.fetch.op s.fetch.opA s.fetch.opB = .ok i ∧ exec i s = .next t) ∨
       (map.lookup s.fetch.op = none ∧ t = s.takeFault .unknownOpcode s.fetch.op)) := by
  cases hr : s.run with
  | halted => simp [cycle_of_halted map hr] at h
  | faulted => simp [cycle_of_faulted map hr] at h
  | running =>
    rw [cycle_of_running map hr] at h
    refine ⟨rfl, ?_⟩
    cases hl : map.lookup s.fetch.op with
    | some m =>
      rw [decode_of_lookup hl] at h ⊢
      exact .inl ⟨_, rfl, h⟩
    | none =>
      rw [decode_of_unknown hl] at h
      exact .inr ⟨rfl, by simpa [runDecoded] using h.symm⟩

end Machine

end Sys2Proof
end

