-- ==== Sys2Proof/Laws/Flags.lean ====
section
/-! SUPPORT. CMP's outcome is always one of the three flag states, so `FL` stays legal (10_state.md R29). -/

namespace Sys2Proof.Machine

theorem compareFl_cases (va vb : Byte) :
    (va.toNat < vb.toNat ∧ compareFl va vb = flLessThan) ∨
    (vb.toNat < va.toNat ∧ compareFl va vb = flGreaterThan) ∨
    (va = vb ∧ compareFl va vb = flEqual) := by
  unfold compareFl
  rcases lt_trichotomy va.toNat vb.toNat with h | h | h
  · exact .inl ⟨h, by rw [if_pos h]⟩
  · exact .inr (.inr ⟨BitVec.eq_of_toNat_eq h, by simp [h]⟩)
  · exact .inr (.inl ⟨h, by rw [if_neg (by omega), if_pos h]⟩)

theorem legalFl_compareFl (va vb : Byte) : legalFl (compareFl va vb) := by
  rcases compareFl_cases va vb with ⟨_, h⟩ | ⟨_, h⟩ | ⟨_, h⟩ <;> simp [legalFl, h]

end Sys2Proof.Machine
end

