-- ==== Sys2Proof/Laws/Memory.lean ====
section
/-! SUPPORT. The laws of the memory operations: what a read gives after a write, and that a write keeps the canonical
form. -/

namespace Sys2Proof.Machine

theorem Memory.lookup_cons (c : Host.Cell) (m : Memory) (j : Nat) :
    List.lookup j (c :: m) = if j = c.1 then some c.2 else m.lookup j := by
  obtain ⟨k, v⟩ := c
  by_cases h : j = k <;> simp [List.lookup, h, beq_eq_decide]

theorem Memory.lookup_drop (m : Memory) (k j : Nat) :
    (m.drop k).lookup j = if j = k then none else m.lookup j := by
  unfold Memory.drop
  induction m with
  | nil => simp
  | cons c m ih =>
    by_cases hc : c.1 = k
    · rw [List.filter_cons_of_neg (by simp [hc]), ih, Memory.lookup_cons, hc]
      split <;> rfl
    · rw [List.filter_cons_of_pos (by simp [hc]), Memory.lookup_cons, Memory.lookup_cons, ih]
      by_cases hj : j = c.1 <;> simp [hj, hc]

theorem Memory.lookup_insertCell (c : Host.Cell) (m : Memory) (j : Nat) (h : m.lookup c.1 = none) :
    (Memory.insertCell c m).lookup j = if j = c.1 then some c.2 else m.lookup j := by
  induction m with
  | nil => simp [Memory.insertCell, Memory.lookup_cons]
  | cons d m ih =>
    have hd : c.1 ≠ d.1 := fun e => by simp [Memory.lookup_cons, e] at h
    have hm : m.lookup c.1 = none := by simpa [Memory.lookup_cons, hd] using h
    unfold Memory.insertCell
    split
    · exact Memory.lookup_cons c _ j
    · rw [Memory.lookup_cons, Memory.lookup_cons, ih hm]
      by_cases hj : j = d.1
      · subst hj; simp [Ne.symm hd]
      · simp [hj]

/-- The one law of a read after a write, at any address (20_memory.md R51). -/
theorem Memory.read_write (m : Memory) (a v x : Byte) :
    (m.write a v).read x = if x = a then v else m.read x := by
  have hx : (x.toNat = a.toNat) ↔ x = a := BitVec.toNat_inj
  unfold Memory.write Memory.read
  split
  · rename_i hv
    by_cases h : x = a <;> simp [Memory.lookup_drop, hx, h, hv]
  · rw [Memory.lookup_insertCell _ _ _ (by simp [Memory.lookup_drop])]
    by_cases h : x = a <;> simp [Memory.lookup_drop, hx, h]

@[simp] theorem Memory.read_write_self (m : Memory) (a v : Byte) : (m.write a v).read a = v := by
  simp [Memory.read_write]

theorem Memory.read_write_of_ne (m : Memory) {a x : Byte} (v : Byte) (h : x ≠ a) :
    (m.write a v).read x = m.read x := by
  simp [Memory.read_write, h]

@[simp] theorem Memory.read_nil (x : Byte) : Memory.read [] x = 0 := rfl

/-! ## The canonical form -/

theorem Memory.wf_nil : Memory.wf [] := by simp [Memory.wf]

theorem Memory.mem_drop {m : Memory} {k : Nat} {c : Host.Cell} : c ∈ m.drop k ↔ c ∈ m ∧ c.1 ≠ k := by
  simp [Memory.drop]

theorem Memory.wf_drop {m : Memory} (k : Nat) (h : m.wf) : (m.drop k).wf :=
  ⟨h.1.filter _, fun c hc => h.2 c (Memory.mem_drop.mp hc).1⟩

theorem Memory.mem_insertCell (c : Host.Cell) (m : Memory) (d : Host.Cell) :
    d ∈ Memory.insertCell c m ↔ d = c ∨ d ∈ m := by
  induction m with
  | nil => simp [Memory.insertCell]
  | cons e m ih =>
    unfold Memory.insertCell
    split
    · simp
    · simp only [List.mem_cons, ih]
      tauto

theorem Memory.wf_insertCell {m : Memory} {c : Host.Cell} (h : m.wf) (hc : c.1 < Config.memSize)
    (hv : c.2 ≠ Memory.unlisted) (hn : ∀ d ∈ m, d.1 ≠ c.1) : (Memory.insertCell c m).wf := by
  refine ⟨?_, fun d hd => ?_⟩
  · induction m with
    | nil => simp [Memory.insertCell]
    | cons e m ih =>
      obtain ⟨he, hm⟩ := List.pairwise_cons.mp h.1
      unfold Memory.insertCell
      split
      · rename_i hlt
        refine List.pairwise_cons.mpr ⟨fun d hd => ?_, h.1⟩
        rcases List.mem_cons.mp hd with rfl | hd
        · exact hlt
        · exact hlt.trans (he d hd)
      · rename_i hge
        have hec : e.1 < c.1 := by have := hn e (by simp); omega
        refine List.pairwise_cons.mpr ⟨fun d hd => ?_, ih ⟨hm, fun d hd => h.2 d (by simp [hd])⟩ fun d hd => hn d (by simp [hd])⟩
        rcases (Memory.mem_insertCell c m d).mp hd with rfl | hd
        · exact hec
        · exact he d hd
  · rcases (Memory.mem_insertCell c m d).mp hd with rfl | hd
    · exact ⟨hc, hv⟩
    · exact h.2 d hd

/-- Every write keeps the canonical form. -/
theorem Memory.wf_write {m : Memory} (a v : Byte) (h : m.wf) : (m.write a v).wf := by
  unfold Memory.write
  split
  · exact Memory.wf_drop _ h
  · rename_i hv
    exact Memory.wf_insertCell (Memory.wf_drop _ h) a.isLt hv fun d hd => (Memory.mem_drop.mp hd).2

theorem Memory.wf_writeImage {m : Memory} (a : Byte) (bs : List Byte) (h : m.wf) : (m.writeImage a bs).wf := by
  induction bs generalizing m a with
  | nil => exact h
  | cons b bs ih => exact ih (a + 1) (Memory.wf_write a b h)

end Sys2Proof.Machine
end

