-- ==== Sys2Proof/Laws/Operands.lean ====
section
/-! SUPPORT. What each check before execution can answer (40_cycle.md R114 to R116), one lemma a case and one inversion
lemma a check. -/

namespace Sys2Proof.Machine

theorem regOf_of_lt {a : Byte} (h : a.toNat < 8) : regOf a = some ⟨a.toNat, h⟩ := by simp [regOf, h]

theorem regOf_of_gt {a : Byte} (h : 7 < a.toNat) : regOf a = none := by
  simp only [regOf, dif_neg (show ¬ a.toNat < 8 by omega)]

theorem withReg_of_lt {a : Byte} (h : a.toNat < 8) (s : State) (k : Reg → Result) :
    withReg a s k = k ⟨a.toNat, h⟩ := by
  simp [withReg, regOf_of_lt h]

theorem withReg_of_gt {a : Byte} (h : 7 < a.toNat) (s : State) (k : Reg → Result) :
    withReg a s k = .next (s.takeFault .invalidRegisterIndex a) := by
  simp [withReg, regOf_of_gt h]

/-- Everything the register-index check can do. -/
theorem withReg_cases (a : Byte) (s : State) (k : Reg → Result) :
    (∃ h : a.toNat < 8, withReg a s k = k ⟨a.toNat, h⟩) ∨
    (7 < a.toNat ∧ withReg a s k = .next (s.takeFault .invalidRegisterIndex a)) := by
  by_cases h : a.toNat < 8
  · exact .inl ⟨h, withReg_of_lt h s k⟩
  · exact .inr ⟨by omega, withReg_of_gt (by omega) s k⟩

theorem withRegs_of_lt {a b : Byte} (ha : a.toNat < 8) (hb : b.toNat < 8) (s : State) (k : Reg → Reg → Result) :
    withRegs a b s k = k ⟨a.toNat, ha⟩ ⟨b.toNat, hb⟩ := by
  simp [withRegs, withReg_of_lt ha, withReg_of_lt hb]

/-- Everything the checks of two operands can do. -/
theorem withRegs_cases (a b : Byte) (s : State) (k : Reg → Reg → Result) :
    (∃ (ha : a.toNat < 8) (hb : b.toNat < 8), withRegs a b s k = k ⟨a.toNat, ha⟩ ⟨b.toNat, hb⟩) ∨
    (7 < a.toNat ∧ withRegs a b s k = .next (s.takeFault .invalidRegisterIndex a)) ∨
    (a.toNat < 8 ∧ 7 < b.toNat ∧ withRegs a b s k = .next (s.takeFault .invalidRegisterIndex b)) := by
  unfold withRegs
  rcases withReg_cases a s (fun ra => withReg b s fun rb => k ra rb) with ⟨ha, e⟩ | ⟨ha, e⟩
  · rcases withReg_cases b s (fun rb => k ⟨a.toNat, ha⟩ rb) with ⟨hb, e'⟩ | ⟨hb, e'⟩
    · exact .inl ⟨ha, hb, e.trans e'⟩
    · exact .inr (.inr ⟨ha, hb, e.trans e'⟩)
  · exact .inr (.inl ⟨ha, e⟩)

theorem withStackSlot_of_ne {s : State} (h : s.sp ≠ 0x00) (k : State → Result) :
    withStackSlot s k = k (s.setSp (s.sp - 1)) := by
  simp only [withStackSlot, if_neg h]

theorem withStackSlot_of_eq {s : State} (h : s.sp = 0x00) (k : State → Result) :
    withStackSlot s k = .next (s.takeFault .stackOverflow 0x00) := by
  simp only [withStackSlot, if_pos h]

/-- Everything the stack-capacity check can do. -/
theorem withStackSlot_cases (s : State) (k : State → Result) :
    (s.sp ≠ 0x00 ∧ withStackSlot s k = k (s.setSp (s.sp - 1))) ∨
    (s.sp = 0x00 ∧ withStackSlot s k = .next (s.takeFault .stackOverflow 0x00)) := by
  by_cases h : s.sp = 0x00
  · exact .inr ⟨h, withStackSlot_of_eq h k⟩
  · exact .inl ⟨h, withStackSlot_of_ne h k⟩

end Sys2Proof.Machine
end

