-- ==== Sys2Proof/Laws/State.lean ====
section
/-! SUPPORT. One lemma per field per update of State, true by unfolding, and the reads of a register after each update. -/

namespace Sys2Proof.Machine

/-! ### `State.setReg` -/

@[simp] theorem State.setReg_regs (s : State) (r : Reg) (v : Byte) : (s.setReg r v).regs = s.regs.set r.val v r.isLt := rfl
@[simp] theorem State.setReg_pc (s : State) (r : Reg) (v : Byte) : (s.setReg r v).pc = s.pc := rfl
@[simp] theorem State.setReg_fl (s : State) (r : Reg) (v : Byte) : (s.setReg r v).fl = s.fl := rfl
@[simp] theorem State.setReg_mem (s : State) (r : Reg) (v : Byte) : (s.setReg r v).mem = s.mem := rfl
@[simp] theorem State.setReg_run (s : State) (r : Reg) (v : Byte) : (s.setReg r v).run = s.run := rfl
@[simp] theorem State.setReg_faultCause (s : State) (r : Reg) (v : Byte) : (s.setReg r v).faultCause = s.faultCause := rfl
@[simp] theorem State.setReg_faultAddr (s : State) (r : Reg) (v : Byte) : (s.setReg r v).faultAddr = s.faultAddr := rfl
@[simp] theorem State.setReg_faultData (s : State) (r : Reg) (v : Byte) : (s.setReg r v).faultData = s.faultData := rfl
@[simp] theorem State.setReg_out (s : State) (r : Reg) (v : Byte) : (s.setReg r v).out = s.out := rfl

/-! ### `State.setSp` -/

@[simp] theorem State.setSp_regs (s : State) (v : Byte) : (s.setSp v).regs = s.regs.set Config.spIndex.val v Config.spIndex.isLt := rfl
@[simp] theorem State.setSp_pc (s : State) (v : Byte) : (s.setSp v).pc = s.pc := rfl
@[simp] theorem State.setSp_fl (s : State) (v : Byte) : (s.setSp v).fl = s.fl := rfl
@[simp] theorem State.setSp_mem (s : State) (v : Byte) : (s.setSp v).mem = s.mem := rfl
@[simp] theorem State.setSp_run (s : State) (v : Byte) : (s.setSp v).run = s.run := rfl
@[simp] theorem State.setSp_faultCause (s : State) (v : Byte) : (s.setSp v).faultCause = s.faultCause := rfl
@[simp] theorem State.setSp_faultAddr (s : State) (v : Byte) : (s.setSp v).faultAddr = s.faultAddr := rfl
@[simp] theorem State.setSp_faultData (s : State) (v : Byte) : (s.setSp v).faultData = s.faultData := rfl
@[simp] theorem State.setSp_out (s : State) (v : Byte) : (s.setSp v).out = s.out := rfl

/-! ### `State.store` -/

@[simp] theorem State.store_regs (s : State) (a v : Byte) : (s.store a v).regs = s.regs := rfl
@[simp] theorem State.store_pc (s : State) (a v : Byte) : (s.store a v).pc = s.pc := rfl
@[simp] theorem State.store_fl (s : State) (a v : Byte) : (s.store a v).fl = s.fl := rfl
@[simp] theorem State.store_mem (s : State) (a v : Byte) : (s.store a v).mem = s.mem.write a v := rfl
@[simp] theorem State.store_run (s : State) (a v : Byte) : (s.store a v).run = s.run := rfl
@[simp] theorem State.store_faultCause (s : State) (a v : Byte) : (s.store a v).faultCause = s.faultCause := rfl
@[simp] theorem State.store_faultAddr (s : State) (a v : Byte) : (s.store a v).faultAddr = s.faultAddr := rfl
@[simp] theorem State.store_faultData (s : State) (a v : Byte) : (s.store a v).faultData = s.faultData := rfl
@[simp] theorem State.store_out (s : State) (a v : Byte) : (s.store a v).out = s.out := rfl

/-! ### `State.setFl` -/

@[simp] theorem State.setFl_regs (s : State) (f : BitVec 3) : (s.setFl f).regs = s.regs := rfl
@[simp] theorem State.setFl_pc (s : State) (f : BitVec 3) : (s.setFl f).pc = s.pc := rfl
@[simp] theorem State.setFl_fl (s : State) (f : BitVec 3) : (s.setFl f).fl = f := rfl
@[simp] theorem State.setFl_mem (s : State) (f : BitVec 3) : (s.setFl f).mem = s.mem := rfl
@[simp] theorem State.setFl_run (s : State) (f : BitVec 3) : (s.setFl f).run = s.run := rfl
@[simp] theorem State.setFl_faultCause (s : State) (f : BitVec 3) : (s.setFl f).faultCause = s.faultCause := rfl
@[simp] theorem State.setFl_faultAddr (s : State) (f : BitVec 3) : (s.setFl f).faultAddr = s.faultAddr := rfl
@[simp] theorem State.setFl_faultData (s : State) (f : BitVec 3) : (s.setFl f).faultData = s.faultData := rfl
@[simp] theorem State.setFl_out (s : State) (f : BitVec 3) : (s.setFl f).out = s.out := rfl

/-! ### `State.jump` -/

@[simp] theorem State.jump_regs (s : State) (t : Byte) : (s.jump t).regs = s.regs := rfl
@[simp] theorem State.jump_pc (s : State) (t : Byte) : (s.jump t).pc = t := rfl
@[simp] theorem State.jump_fl (s : State) (t : Byte) : (s.jump t).fl = s.fl := rfl
@[simp] theorem State.jump_mem (s : State) (t : Byte) : (s.jump t).mem = s.mem := rfl
@[simp] theorem State.jump_run (s : State) (t : Byte) : (s.jump t).run = s.run := rfl
@[simp] theorem State.jump_faultCause (s : State) (t : Byte) : (s.jump t).faultCause = s.faultCause := rfl
@[simp] theorem State.jump_faultAddr (s : State) (t : Byte) : (s.jump t).faultAddr = s.faultAddr := rfl
@[simp] theorem State.jump_faultData (s : State) (t : Byte) : (s.jump t).faultData = s.faultData := rfl
@[simp] theorem State.jump_out (s : State) (t : Byte) : (s.jump t).out = s.out := rfl

/-! ### `State.advance` -/

@[simp] theorem State.advance_regs (s : State) (m : Mnemonic) : (s.advance m).regs = s.regs := rfl
@[simp] theorem State.advance_pc (s : State) (m : Mnemonic) : (s.advance m).pc = s.nextAddress m := rfl
@[simp] theorem State.advance_fl (s : State) (m : Mnemonic) : (s.advance m).fl = s.fl := rfl
@[simp] theorem State.advance_mem (s : State) (m : Mnemonic) : (s.advance m).mem = s.mem := rfl
@[simp] theorem State.advance_run (s : State) (m : Mnemonic) : (s.advance m).run = s.run := rfl
@[simp] theorem State.advance_faultCause (s : State) (m : Mnemonic) : (s.advance m).faultCause = s.faultCause := rfl
@[simp] theorem State.advance_faultAddr (s : State) (m : Mnemonic) : (s.advance m).faultAddr = s.faultAddr := rfl
@[simp] theorem State.advance_faultData (s : State) (m : Mnemonic) : (s.advance m).faultData = s.faultData := rfl
@[simp] theorem State.advance_out (s : State) (m : Mnemonic) : (s.advance m).out = s.out := rfl

/-! ### `State.emit` -/

@[simp] theorem State.emit_regs (s : State) (v : Byte) : (s.emit v).regs = s.regs := rfl
@[simp] theorem State.emit_pc (s : State) (v : Byte) : (s.emit v).pc = s.pc := rfl
@[simp] theorem State.emit_fl (s : State) (v : Byte) : (s.emit v).fl = s.fl := rfl
@[simp] theorem State.emit_mem (s : State) (v : Byte) : (s.emit v).mem = s.mem := rfl
@[simp] theorem State.emit_run (s : State) (v : Byte) : (s.emit v).run = s.run := rfl
@[simp] theorem State.emit_faultCause (s : State) (v : Byte) : (s.emit v).faultCause = s.faultCause := rfl
@[simp] theorem State.emit_faultAddr (s : State) (v : Byte) : (s.emit v).faultAddr = s.faultAddr := rfl
@[simp] theorem State.emit_faultData (s : State) (v : Byte) : (s.emit v).faultData = s.faultData := rfl
@[simp] theorem State.emit_out (s : State) (v : Byte) : (s.emit v).out = s.out ++ [v] := rfl

/-! ### `State.halt` -/

@[simp] theorem State.halt_regs (s : State) : (s.halt).regs = s.regs := rfl
@[simp] theorem State.halt_pc (s : State) : (s.halt).pc = s.pc := rfl
@[simp] theorem State.halt_fl (s : State) : (s.halt).fl = s.fl := rfl
@[simp] theorem State.halt_mem (s : State) : (s.halt).mem = s.mem := rfl
@[simp] theorem State.halt_run (s : State) : (s.halt).run = .halted := rfl
@[simp] theorem State.halt_faultCause (s : State) : (s.halt).faultCause = s.faultCause := rfl
@[simp] theorem State.halt_faultAddr (s : State) : (s.halt).faultAddr = s.faultAddr := rfl
@[simp] theorem State.halt_faultData (s : State) : (s.halt).faultData = s.faultData := rfl
@[simp] theorem State.halt_out (s : State) : (s.halt).out = s.out := rfl

/-! ### `State.takeFault` -/

@[simp] theorem State.takeFault_regs (s : State) (c : FaultCause) (info : Byte) : (s.takeFault c info).regs = s.regs := rfl
@[simp] theorem State.takeFault_pc (s : State) (c : FaultCause) (info : Byte) : (s.takeFault c info).pc = s.pc := rfl
@[simp] theorem State.takeFault_fl (s : State) (c : FaultCause) (info : Byte) : (s.takeFault c info).fl = s.fl := rfl
@[simp] theorem State.takeFault_mem (s : State) (c : FaultCause) (info : Byte) : (s.takeFault c info).mem = s.mem := rfl
@[simp] theorem State.takeFault_run (s : State) (c : FaultCause) (info : Byte) : (s.takeFault c info).run = .faulted := rfl
@[simp] theorem State.takeFault_faultCause (s : State) (c : FaultCause) (info : Byte) : (s.takeFault c info).faultCause = c.code := rfl
@[simp] theorem State.takeFault_faultAddr (s : State) (c : FaultCause) (info : Byte) : (s.takeFault c info).faultAddr = s.pc := rfl
@[simp] theorem State.takeFault_faultData (s : State) (c : FaultCause) (info : Byte) : (s.takeFault c info).faultData = info := rfl
@[simp] theorem State.takeFault_out (s : State) (c : FaultCause) (info : Byte) : (s.takeFault c info).out = s.out := rfl

/-! ### Reading a register, SP, a cell and `FL.E` after an update -/

theorem State.reg_setReg (s : State) (r q : Reg) (v : Byte) :
    (s.setReg r v).reg q = if q = r then v else s.reg q := by
  simp only [State.reg, State.setReg_regs, Vector.getElem_set, Fin.ext_iff, eq_comm]

@[simp] theorem State.reg_setReg_self (s : State) (r : Reg) (v : Byte) : (s.setReg r v).reg r = v := by
  simp [State.reg_setReg]

theorem State.reg_setReg_of_ne (s : State) {r q : Reg} (v : Byte) (h : q ≠ r) :
    (s.setReg r v).reg q = s.reg q := by
  simp [State.reg_setReg, h]

@[simp] theorem State.sp_setSp (s : State) (v : Byte) : (s.setSp v).sp = v :=
  State.reg_setReg_self s _ v

theorem State.reg_setSp_of_ne (s : State) {q : Reg} (v : Byte) (h : q ≠ Config.spIndex) :
    (s.setSp v).reg q = s.reg q :=
  State.reg_setReg_of_ne s v h

/-- Two states of equal register files read equal registers. -/
theorem State.reg_congr {s t : State} (h : s.regs = t.regs) (r : Reg) : s.reg r = t.reg r := by
  simp only [State.reg, h]

@[simp] theorem State.reg_store (s : State) (a v : Byte) (q : Reg) : (s.store a v).reg q = s.reg q := rfl
@[simp] theorem State.sp_store (s : State) (a v : Byte) : (s.store a v).sp = s.sp := rfl
@[simp] theorem State.reg_setFl (s : State) (f : BitVec 3) (q : Reg) : (s.setFl f).reg q = s.reg q := rfl
@[simp] theorem State.sp_setFl (s : State) (f : BitVec 3) : (s.setFl f).sp = s.sp := rfl
@[simp] theorem State.reg_jump (s : State) (t : Byte) (q : Reg) : (s.jump t).reg q = s.reg q := rfl
@[simp] theorem State.sp_jump (s : State) (t : Byte) : (s.jump t).sp = s.sp := rfl
@[simp] theorem State.reg_advance (s : State) (m : Mnemonic) (q : Reg) : (s.advance m).reg q = s.reg q := rfl
@[simp] theorem State.sp_advance (s : State) (m : Mnemonic) : (s.advance m).sp = s.sp := rfl
@[simp] theorem State.reg_emit (s : State) (v : Byte) (q : Reg) : (s.emit v).reg q = s.reg q := rfl
@[simp] theorem State.sp_emit (s : State) (v : Byte) : (s.emit v).sp = s.sp := rfl
@[simp] theorem State.reg_halt (s : State) (q : Reg) : (s.halt).reg q = s.reg q := rfl
@[simp] theorem State.sp_halt (s : State) : (s.halt).sp = s.sp := rfl
@[simp] theorem State.reg_takeFault (s : State) (c : FaultCause) (info : Byte) (q : Reg) : (s.takeFault c info).reg q = s.reg q := rfl
@[simp] theorem State.sp_takeFault (s : State) (c : FaultCause) (info : Byte) : (s.takeFault c info).sp = s.sp := rfl
@[simp] theorem State.load_setReg (s : State) (r : Reg) (v : Byte) (x : Byte) : (s.setReg r v).load x = s.load x := rfl
@[simp] theorem State.load_setSp (s : State) (v : Byte) (x : Byte) : (s.setSp v).load x = s.load x := rfl
@[simp] theorem State.load_setFl (s : State) (f : BitVec 3) (x : Byte) : (s.setFl f).load x = s.load x := rfl
@[simp] theorem State.load_jump (s : State) (t : Byte) (x : Byte) : (s.jump t).load x = s.load x := rfl
@[simp] theorem State.load_advance (s : State) (m : Mnemonic) (x : Byte) : (s.advance m).load x = s.load x := rfl
@[simp] theorem State.load_emit (s : State) (v : Byte) (x : Byte) : (s.emit v).load x = s.load x := rfl
@[simp] theorem State.load_halt (s : State) (x : Byte) : (s.halt).load x = s.load x := rfl
@[simp] theorem State.load_takeFault (s : State) (c : FaultCause) (info : Byte) (x : Byte) : (s.takeFault c info).load x = s.load x := rfl
@[simp] theorem State.flagE_setReg (s : State) (r : Reg) (v : Byte) : (s.setReg r v).flagE = s.flagE := rfl
@[simp] theorem State.flagE_setSp (s : State) (v : Byte) : (s.setSp v).flagE = s.flagE := rfl
@[simp] theorem State.flagE_store (s : State) (a v : Byte) : (s.store a v).flagE = s.flagE := rfl
@[simp] theorem State.flagE_jump (s : State) (t : Byte) : (s.jump t).flagE = s.flagE := rfl
@[simp] theorem State.flagE_advance (s : State) (m : Mnemonic) : (s.advance m).flagE = s.flagE := rfl
@[simp] theorem State.flagE_emit (s : State) (v : Byte) : (s.emit v).flagE = s.flagE := rfl
@[simp] theorem State.flagE_halt (s : State) : (s.halt).flagE = s.flagE := rfl
@[simp] theorem State.flagE_takeFault (s : State) (c : FaultCause) (info : Byte) : (s.takeFault c info).flagE = s.flagE := rfl

/-! ### `State.incSp` -/

@[simp] theorem State.incSp_regs (s : State) :
    s.incSp.regs = s.regs.set Config.spIndex.val (s.sp + 1) Config.spIndex.isLt := rfl
@[simp] theorem State.incSp_pc (s : State) : s.incSp.pc = s.pc := rfl
@[simp] theorem State.incSp_fl (s : State) : s.incSp.fl = s.fl := rfl
@[simp] theorem State.incSp_mem (s : State) : s.incSp.mem = s.mem := rfl
@[simp] theorem State.incSp_run (s : State) : s.incSp.run = s.run := rfl
@[simp] theorem State.incSp_faultCause (s : State) : s.incSp.faultCause = s.faultCause := rfl
@[simp] theorem State.incSp_faultAddr (s : State) : s.incSp.faultAddr = s.faultAddr := rfl
@[simp] theorem State.incSp_faultData (s : State) : s.incSp.faultData = s.faultData := rfl
@[simp] theorem State.incSp_out (s : State) : s.incSp.out = s.out := rfl
@[simp] theorem State.sp_incSp (s : State) : s.incSp.sp = s.sp + 1 := State.sp_setSp s _

@[simp] theorem State.nextAddress_setSp (s : State) (v : Byte) (m : Mnemonic) :
    (s.setSp v).nextAddress m = s.nextAddress m := rfl

/-! ### Updates that meet -/

theorem State.setReg_comm (s : State) {r q : Reg} (v w : Byte) (h : r ≠ q) :
    (s.setReg r v).setReg q w = (s.setReg q w).setReg r v := by
  simp only [State.setReg, Vector.set_comm v w (fun e => h (Fin.ext e))]

@[simp] theorem State.setReg_setReg (s : State) (r : Reg) (v w : Byte) :
    (s.setReg r v).setReg r w = s.setReg r w := by
  simp only [State.setReg, Vector.set_set]

@[simp] theorem State.setReg_reg (s : State) (r : Reg) : s.setReg r (s.reg r) = s := by
  simp only [State.setReg, State.reg, Vector.set_getElem_self]

end Sys2Proof.Machine
end

