-- ==== Sys2Proof/Laws/Exec.lean ====
section
/-! SUPPORT. Everything each meaning can do, one inversion lemma an instruction: its own effect, under the checks that let it
through, or one fault entry (40_cycle.md R116). Later proofs split on these instead of unfolding a meaning. After them, what
the next fetch sees of a write. -/

namespace Sys2Proof.Machine

/-- What `InvalidRegisterIndex` leaves (60_exceptions.md R202). -/
abbrev State.badIndex (s : State) (b : Byte) : State := s.takeFault .invalidRegisterIndex b

theorem execPrn_cases (a : Byte) (s : State) :
    (∃ ha : a.toNat < 8, execPrn a s = .next ((s.emit (s.reg ⟨a.toNat, ha⟩)).advance .prn)) ∨
    (7 < a.toNat ∧ execPrn a s = .next (s.badIndex a)) :=
  withReg_cases a s _

theorem execLdi_cases (a imm : Byte) (s : State) :
    (∃ ha : a.toNat < 8, execLdi a imm s = .next ((s.setReg ⟨a.toNat, ha⟩ imm).advance .ldi)) ∨
    (7 < a.toNat ∧ execLdi a imm s = .next (s.badIndex a)) :=
  withReg_cases a s _

theorem execPop_cases (a : Byte) (s : State) :
    (∃ ha : a.toNat < 8, execPop a s = .next ((s.setReg ⟨a.toNat, ha⟩ (s.load s.sp)).incSp.advance .pop)) ∨
    (7 < a.toNat ∧ execPop a s = .next (s.badIndex a)) :=
  withReg_cases a s _

theorem execJmp_cases (a : Byte) (s : State) :
    (∃ ha : a.toNat < 8, execJmp a s = .next (s.jump (s.reg ⟨a.toNat, ha⟩))) ∨
    (7 < a.toNat ∧ execJmp a s = .next (s.badIndex a)) :=
  withReg_cases a s _

theorem execJeq_cases (a : Byte) (s : State) :
    (∃ ha : a.toNat < 8, execJeq a s = .next (s.jumpIf s.flagE .jeq ⟨a.toNat, ha⟩)) ∨
    (7 < a.toNat ∧ execJeq a s = .next (s.badIndex a)) :=
  withReg_cases a s _

theorem execJne_cases (a : Byte) (s : State) :
    (∃ ha : a.toNat < 8, execJne a s = .next (s.jumpIf (!s.flagE) .jne ⟨a.toNat, ha⟩)) ∨
    (7 < a.toNat ∧ execJne a s = .next (s.badIndex a)) :=
  withReg_cases a s _

theorem execSt_cases (a b : Byte) (s : State) :
    (∃ (ha : a.toNat < 8) (hb : b.toNat < 8), execSt a b s = .next ((s.store (s.reg ⟨a.toNat, ha⟩) (s.reg ⟨b.toNat, hb⟩)).advance .st)) ∨
    (7 < a.toNat ∧ execSt a b s = .next (s.badIndex a)) ∨
    (a.toNat < 8 ∧ 7 < b.toNat ∧ execSt a b s = .next (s.badIndex b)) :=
  withRegs_cases a b s _

theorem execAdd_cases (a b : Byte) (s : State) :
    (∃ (ha : a.toNat < 8) (hb : b.toNat < 8), execAdd a b s = .next ((s.aluApply .add ⟨a.toNat, ha⟩ ⟨b.toNat, hb⟩).advance .add)) ∨
    (7 < a.toNat ∧ execAdd a b s = .next (s.badIndex a)) ∨
    (a.toNat < 8 ∧ 7 < b.toNat ∧ execAdd a b s = .next (s.badIndex b)) :=
  withRegs_cases a b s _

theorem execMul_cases (a b : Byte) (s : State) :
    (∃ (ha : a.toNat < 8) (hb : b.toNat < 8), execMul a b s = .next ((s.aluApply .mul ⟨a.toNat, ha⟩ ⟨b.toNat, hb⟩).advance .mul)) ∨
    (7 < a.toNat ∧ execMul a b s = .next (s.badIndex a)) ∨
    (a.toNat < 8 ∧ 7 < b.toNat ∧ execMul a b s = .next (s.badIndex b)) :=
  withRegs_cases a b s _

theorem execCmp_cases (a b : Byte) (s : State) :
    (∃ (ha : a.toNat < 8) (hb : b.toNat < 8), execCmp a b s = .next ((s.aluApply .cmp ⟨a.toNat, ha⟩ ⟨b.toNat, hb⟩).advance .cmp)) ∨
    (7 < a.toNat ∧ execCmp a b s = .next (s.badIndex a)) ∨
    (a.toNat < 8 ∧ 7 < b.toNat ∧ execCmp a b s = .next (s.badIndex b)) :=
  withRegs_cases a b s _

theorem execPush_cases (a : Byte) (s : State) :
    (∃ ha : a.toNat < 8, s.sp ≠ 0x00 ∧ execPush a s =
      .next (((s.setSp (s.sp - 1)).store (s.sp - 1) ((s.setSp (s.sp - 1)).reg ⟨a.toNat, ha⟩)).advance .push)) ∨
    (7 < a.toNat ∧ execPush a s = .next (s.badIndex a)) ∨
    (a.toNat < 8 ∧ s.sp = 0x00 ∧ execPush a s = .next (s.takeFault .stackOverflow 0x00)) := by
  rcases withReg_cases a s (fun ra => withStackSlot s fun s₁ =>
      .next ((s₁.store s₁.sp (s₁.reg ra)).advance .push)) with ⟨ha, e⟩ | ⟨ha, e⟩
  · rcases withStackSlot_cases s (fun s₁ =>
        .next ((s₁.store s₁.sp (s₁.reg ⟨a.toNat, ha⟩)).advance .push)) with ⟨hs, e'⟩ | ⟨hs, e'⟩
    · exact .inl ⟨ha, hs, (e.trans e').trans (by rw [State.sp_setSp])⟩
    · exact .inr (.inr ⟨ha, hs, e.trans e'⟩)
  · exact .inr (.inl ⟨ha, e⟩)

theorem execCall_cases (a : Byte) (s : State) :
    (∃ ha : a.toNat < 8, s.sp ≠ 0x00 ∧ execCall a s =
      .next (((s.setSp (s.sp - 1)).store (s.sp - 1) (s.nextAddress .call)).jump ((s.setSp (s.sp - 1)).reg ⟨a.toNat, ha⟩))) ∨
    (7 < a.toNat ∧ execCall a s = .next (s.badIndex a)) ∨
    (a.toNat < 8 ∧ s.sp = 0x00 ∧ execCall a s = .next (s.takeFault .stackOverflow 0x00)) := by
  rcases withReg_cases a s (fun ra => withStackSlot s fun s₁ =>
      .next ((s₁.store s₁.sp (s₁.nextAddress .call)).jump (s₁.reg ra))) with ⟨ha, e⟩ | ⟨ha, e⟩
  · rcases withStackSlot_cases s (fun s₁ =>
        .next ((s₁.store s₁.sp (s₁.nextAddress .call)).jump (s₁.reg ⟨a.toNat, ha⟩))) with ⟨hs, e'⟩ | ⟨hs, e'⟩
    · exact .inl ⟨ha, hs, (e.trans e').trans (by rw [State.sp_setSp]; rfl)⟩
    · exact .inr (.inr ⟨ha, hs, e.trans e'⟩)
  · exact .inr (.inl ⟨ha, e⟩)

/-- A state whose last memory write was `v` to `x` fetches `v` from `x`. -/
theorem State.fetchSees_of_write {t : State} {m : Memory} {x v : Byte} (h : t.mem = m.write x v) : t.fetchSees x v := by
  have hx : t.load x = v := by rw [State.load, h, Memory.read_write_self]
  have seen {y : Byte} (e : x = y) : t.load y = v := e ▸ hx
  exact ⟨seen, seen, seen⟩

theorem legalIndex_iff (b : Byte) : legalIndex b = true ↔ b.toNat < 8 := by simp [legalIndex]

end Sys2Proof.Machine
end

