-- ==== Sys2Proof/Laws/PerInstr.lean ====
section
/-! SUPPORT. Statements about the instruction as syntax, one lemma per constructor. `EncodeShape` says that an encoding is
the mnemonic's opcode byte followed by exactly its operand count of bytes, under any opcode map (30_encoding.md R80). -/

namespace Sys2Proof.Laws.EncodeShape

def Statement (i : Instr) : Prop :=
  ∀ map : OpcodeMap, ∃ operands : List Byte,
    encode map i = map.byteOf i.mnemonic :: operands ∧ operands.length = i.mnemonic.operandCount

theorem hlt : Statement .hlt := fun _ => ⟨[], rfl, rfl⟩
theorem ldi (a imm : Byte) : Statement (.ldi a imm) := fun _ => ⟨[a, imm], rfl, rfl⟩
theorem prn (a : Byte) : Statement (.prn a) := fun _ => ⟨[a], rfl, rfl⟩
theorem add (a b : Byte) : Statement (.add a b) := fun _ => ⟨[a, b], rfl, rfl⟩
theorem mul (a b : Byte) : Statement (.mul a b) := fun _ => ⟨[a, b], rfl, rfl⟩
theorem cmp (a b : Byte) : Statement (.cmp a b) := fun _ => ⟨[a, b], rfl, rfl⟩
theorem push (a : Byte) : Statement (.push a) := fun _ => ⟨[a], rfl, rfl⟩
theorem pop (a : Byte) : Statement (.pop a) := fun _ => ⟨[a], rfl, rfl⟩
theorem call (a : Byte) : Statement (.call a) := fun _ => ⟨[a], rfl, rfl⟩
theorem ret : Statement .ret := fun _ => ⟨[], rfl, rfl⟩
theorem jmp (a : Byte) : Statement (.jmp a) := fun _ => ⟨[a], rfl, rfl⟩
theorem jeq (a : Byte) : Statement (.jeq a) := fun _ => ⟨[a], rfl, rfl⟩
theorem jne (a : Byte) : Statement (.jne a) := fun _ => ⟨[a], rfl, rfl⟩
theorem st (a b : Byte) : Statement (.st a b) := fun _ => ⟨[a, b], rfl, rfl⟩

end Sys2Proof.Laws.EncodeShape
end

