-- ==== Sys2Proof/Machine/Assembly.lean ====
section
/-! DEFINITION. The spec's assembly notation of an instruction (30_encoding.md R91, R92). It is a way to write programs
down; there is no assembler (R92) and no instruction's meaning depends on it. -/

namespace Sys2Proof

/-- The mnemonic in capitals (30_encoding.md R91). -/
def Mnemonic.name : Mnemonic → String
  | .hlt => "HLT"
  | .ldi => "LDI"
  | .prn => "PRN"
  | .add => "ADD"
  | .mul => "MUL"
  | .cmp => "CMP"
  | .push => "PUSH"
  | .pop => "POP"
  | .call => "CALL"
  | .ret => "RET"
  | .jmp => "JMP"
  | .jeq => "JEQ"
  | .jne => "JNE"
  | .st => "ST"

/-- A register operand: `R` and its index (30_encoding.md R91). -/
def regName (b : Byte) : String := "R" ++ toString b.toNat

/-- The operands of an instruction, `opA` first (30_encoding.md R91). -/
def Instr.operandText : Instr → String
  | .hlt | .ret => ""
  | .ldi a imm => " " ++ regName a ++ ", " ++ toString imm.toNat
  | .prn a | .push a | .pop a | .call a | .jmp a | .jeq a | .jne a => " " ++ regName a
  | .add a b | .mul a b | .cmp a b | .st a b => " " ++ regName a ++ ", " ++ regName b

/-- An instruction as the spec writes it, such as `LDI R0, 8` (30_encoding.md R91). -/
def Instr.text (i : Instr) : String := i.mnemonic.name ++ i.operandText

end Sys2Proof
end

