-- ==== Sys2Proof/Tests/Slice0.lean ====
section
/-! SUPPORT. The model's own tests. Every expected value is the spec's: the vectors V10 to V65 and programs of
95_test_vectors.md, the encodings of 30_encoding.md R88, or arithmetic done by hand from a rule that is named. The
`witness_` theorems at the end show, for each obligation with hypotheses, inputs that meet them. -/

namespace Sys2Proof.Tests

open Sys2Proof Sys2Proof.Machine

/-- The reset state with `pc`, some registers and some memory cells set. -/
def at0 (pc : Byte) (regs : List (Reg × Byte)) (cells : List (Byte × Byte)) : State :=
  let s := regs.foldl (fun s r => s.setReg r.1 r.2) (State.reset.jump pc)
  cells.foldl (fun s c => s.store c.1 c.2) s

/-- The state with bytes of code at `pc`. -/
def withCode (s : State) (bytes : List Byte) : State := { s with mem := s.mem.writeImage s.pc bytes }

/-- The answer is a next state with the property. -/
def nextIs (r : Result) (p : State → Bool) : Bool :=
  match r with
  | .next t => p t
  | _ => false

/-! ## Well-formedness: each check refuses an ill-formed instruction (30_encoding.md R84 to R86) -/

theorem test_wf_refuses_opA :
    [Instr.ldi 8 0, .prn 8, .add 8 0, .mul 8 0, .cmp 8 0, .push 8, .pop 255, .call 8, .jmp 8, .jeq 8, .jne 255, .st 8 0].all
      (fun i => !i.wf) = true := by decide

theorem test_wf_refuses_opB : [Instr.add 0 8, .mul 0 8, .cmp 0 255, .st 0 8].all (fun i => !i.wf) = true := by decide

theorem test_wf_accepts_boundaries :
    [Instr.hlt, .ret, .ldi 7 255, .prn 7, .add 7 7, .mul 0 7, .cmp 7 0, .push 7, .pop 7, .call 7, .jmp 7, .jeq 7, .jne 7, .st 7 7].all
      Instr.wf = true := by decide

/-! ## Decoding: a word of every row, written out from 30_encoding.md R88 (opcode byte lowest, then `opA`, then `opB`) -/

theorem test_decode_hlt : decodeTableWord 8 0b00000001 = some .hlt := by decide
theorem test_decode_ldi : decodeTableWord 24 0b000010000000000010000010 = some (.ldi 0 8) := by decide
theorem test_decode_prn : decodeTableWord 16 0b0000011001000111 = some (.prn 6) := by decide
theorem test_decode_add : decodeTableWord 24 0b000000010000001010100000 = some (.add 2 1) := by decide
theorem test_decode_mul : decodeTableWord 24 0b000001010000010010100010 = some (.mul 4 5) := by decide
theorem test_decode_cmp : decodeTableWord 24 0b000001110000000010100111 = some (.cmp 0 7) := by decide
theorem test_decode_push : decodeTableWord 16 0b0000000101000101 = some (.push 1) := by decide
theorem test_decode_pop : decodeTableWord 16 0b0000001001000110 = some (.pop 2) := by decide
theorem test_decode_call : decodeTableWord 16 0b0000001101010000 = some (.call 3) := by decide
theorem test_decode_ret : decodeTableWord 8 0b00010001 = some .ret := by decide
theorem test_decode_jmp : decodeTableWord 16 0b0000001101010100 = some (.jmp 3) := by decide
theorem test_decode_jeq : decodeTableWord 16 0b0000010001010101 = some (.jeq 4) := by decide
theorem test_decode_jne : decodeTableWord 16 0b0000010101010110 = some (.jne 5) := by decide
theorem test_decode_st : decodeTableWord 24 0b000000010000001010000100 = some (.st 2 1) := by decide

/-- The table's row may give the operand bytes no bits: they are then zeros. -/
theorem test_decode_short_word : decodeTableWord 8 0xFFFF82 = some (.ldi 0 0) := by decide

/-- LS-8's NOP, LD and IRET are not instructions here (30_encoding.md R90; V60 to V62). -/
theorem test_decode_unknown : [0x00, 0x010083, 0x13, 0xFF].all (fun w => (decodeTableWord 24 w).isNone) = true := by decide

/-- The layout `AABCDDDD` of the default bytes: operand count, ALU, sets `pc` (30_encoding.md R83). -/
theorem test_default_byte_layout :
    Mnemonic.all.all (fun m =>
      (defaultOpcodeByte m).toNat / 64 == m.operandCount &&
      (defaultOpcodeByte m).getLsbD 5 == [Mnemonic.add, .mul, .cmp].contains m &&
      (defaultOpcodeByte m).getLsbD 4 == [Mnemonic.call, .ret, .jmp, .jeq, .jne].contains m) = true := by decide

/-- A finite stream that ends inside an instruction is refused, and the byte after an instruction is left (30_encoding.md R82). -/
theorem test_decode_stream :
    decodeBytes defaultOpcodeMap [0x47, 0x03, 0x01] = .ok (.prn 3, [0x01]) ∧
    decodeBytes defaultOpcodeMap [0xA0, 0x03] = .error .truncated := ⟨rfl, rfl⟩

/-! ## One step of each instruction (95_test_vectors.md, part 2) -/

/-- V11: the advance of HLT wraps. -/
theorem test_v11_hlt : nextIs (step (withCode (at0 0xFF [] []) [0x01]))
    (fun t => t.run = .halted ∧ t.pc = 0x00) = true := by decide

/-- V13: SP at reset is printed. -/
theorem test_v13_prn : nextIs (step (withCode (at0 0x00 [] []) [0x47, 0x06]))
    (fun t => t.out = [244] ∧ t.pc = 0x02) = true := by decide

/-- V15: a bad index prints nothing. -/
theorem test_v15_prn_bad_index : nextIs (step (withCode (at0 0x00 [] []) [0x47, 0x08]))
    (fun t => t = { withCode (at0 0x00 [] []) [0x47, 0x08] with run := .faulted, faultCause := 3, faultData := 8 }) =
      true := by decide

/-- V25: operands and `pc` wrap at the top of memory. -/
theorem test_v25_ldi_wraps : nextIs (step (withCode (at0 0xFE [] []) [0x82, 0x00, 0xFF]))
    (fun t => t.reg 0 = 0xFF ∧ t.pc = 0x01 ∧ t.load 0x00 = 0xFF) = true := by decide

/-- V23: LDI may move SP. -/
theorem test_v23_ldi_sp : nextIs (step (withCode (at0 0x00 [] []) [0x82, 0x06, 0x80]))
    (fun t => t.sp = 0x80 ∧ t.pc = 0x03) = true := by decide

/-- V26: the first operand of ST holds the address. -/
theorem test_v26_st : nextIs (step (withCode (at0 0x06 [(0, 0x80), (1, 0x2A)] []) [0x84, 0x00, 0x01]))
    (fun t => t.load 0x80 = 0x2A ∧ t.load 0x2A = 0x00 ∧ t.pc = 0x09) = true := by decide

/-- V28: ST over its own opcode byte completes. -/
theorem test_v28_st_own_opcode : nextIs (step (withCode (at0 0x00 [(0, 0x00), (1, 0x01)] []) [0x84, 0x00, 0x01]))
    (fun t => t.load 0x00 = 0x01 ∧ t.run = .running ∧ t.pc = 0x03) = true := by decide

/-- V31: the sum wraps and `FL` stays. -/
theorem test_v31_add_wraps : nextIs (step ((withCode (at0 0x00 [(0, 0xFF), (1, 0x01)] []) [0xA0, 0x00, 0x01]).setFl 0b100))
    (fun t => t.reg 0 = 0x00 ∧ t.reg 1 = 0x01 ∧ t.fl = 0b100 ∧ t.pc = 0x03) = true := by decide

/-- V32: both operands the destination. -/
theorem test_v32_add_self : nextIs (step (withCode (at0 0x00 [(2, 0x81)] []) [0xA0, 0x02, 0x02]))
    (fun t => t.reg 2 = 0x02) = true := by decide

/-- V3A: 200 * 3 is 88 modulo 256. -/
theorem test_v3A_mul : nextIs (step (withCode (at0 0x00 [(0, 0xC8), (1, 0x03)] []) [0xA2, 0x00, 0x01]))
    (fun t => t.reg 0 = 0x58 ∧ t.reg 1 = 0x03 ∧ t.pc = 0x03) = true := by decide

/-- V3B: 255 * 255 is 1 modulo 256. -/
theorem test_v3B_mul : nextIs (step (withCode (at0 0x00 [(0, 0xFF), (1, 0xFF)] []) [0xA2, 0x00, 0x01]))
    (fun t => t.reg 0 = 0x01) = true := by decide

/-- V37: the comparison is unsigned. -/
theorem test_v37_cmp_unsigned : nextIs (step (withCode (at0 0x00 [(0, 0xFF), (1, 0x01)] []) [0xA7, 0x00, 0x01]))
    (fun t => t.fl = 0b010 ∧ t.reg 0 = 0xFF ∧ t.pc = 0x03) = true := by decide

/-- V3G: of two bad indices `opA` is reported. -/
theorem test_v3G_cmp_bad_indices : nextIs (step (withCode (at0 0x00 [] []) [0xA7, 0x0A, 0x09]))
    (fun t => t.run = .faulted ∧ t.faultCause = 3 ∧ t.faultData = 0x0A ∧ t.fl = 0b000) = true := by decide

/-- V48: the last slot of the stack. -/
theorem test_v48_push_last_slot : nextIs (step (withCode (at0 0x03 [(6, 0x01), (0, 0x9A)] []) [0x45, 0x00]))
    (fun t => t.sp = 0x00 ∧ t.load 0x00 = 0x9A ∧ t.pc = 0x05) = true := by decide

/-- V4A: the index check comes before the stack check. -/
theorem test_v4A_push_check_order : nextIs (step (withCode (at0 0x00 [(6, 0x00)] []) [0x45, 0x09]))
    (fun t => t.run = .faulted ∧ t.faultCause = 3 ∧ t.faultData = 0x09 ∧ t.sp = 0x00) = true := by decide

/-- V45: POP R6 ends at the loaded value plus one. -/
theorem test_v45_pop_sp : nextIs (step (withCode (at0 0x05 [(6, 0xF3)] [(0xF3, 0x40)]) [0x46, 0x06]))
    (fun t => t.sp = 0x41 ∧ t.pc = 0x07) = true := by decide

/-- V47: SP wraps upward without a fault. -/
theorem test_v47_pop_wraps : nextIs (step (withCode (at0 0x03 [(6, 0xFF), (0, 0x33)] []) [0x46, 0x00]))
    (fun t => t.reg 0 = 0x00 ∧ t.sp = 0x00 ∧ t.run = .running) = true := by decide

/-- V52: the return address wraps. -/
theorem test_v52_call_wraps : nextIs (step (withCode (at0 0xFE [(1, 0x10)] [(0xF3, 0x77)]) [0x50, 0x01]))
    (fun t => t.load 0xF3 = 0x00 ∧ t.sp = 0xF3 ∧ t.pc = 0x10) = true := by decide

/-- V5D: StackOverflow from CALL. -/
theorem test_v5D_call_overflow : nextIs (step (withCode (at0 0x03 [(6, 0x00)] []) [0x50, 0x00]))
    (fun t => t.run = .faulted ∧ t.faultCause = 4 ∧ t.faultAddr = 0x03 ∧ t.faultData = 0x00 ∧ t.pc = 0x03) = true := by
  decide

/-- V51: RET. -/
theorem test_v51_ret : nextIs (step (withCode (at0 0x0E [(6, 0xF3)] [(0xF3, 0x08)]) [0x11]))
    (fun t => t.pc = 0x08 ∧ t.sp = 0xF4) = true := by decide

/-- V54: JMP. -/
theorem test_v54_jmp : nextIs (step (withCode (at0 0x14 [(3, 0x0C)] []) [0x54, 0x03]))
    (fun t => t.pc = 0x0C) = true := by decide

/-- V55 and V56: JEQ taken on EQUAL alone. -/
theorem test_v55_jeq :
    (nextIs (step ((withCode (at0 0x14 [(3, 0x20)] []) [0x55, 0x03]).setFl 0b001)) (fun t => t.pc = 0x20) &&
     nextIs (step ((withCode (at0 0x14 [(3, 0x20)] []) [0x55, 0x03]).setFl 0b100)) (fun t => t.pc = 0x16)) = true := by
  decide

/-- V5C: a bad index faults although the jump would not be taken. -/
theorem test_v5C_jeq_bad_index : nextIs (step ((withCode (at0 0x00 [] []) [0x55, 0x08]).setFl 0b100))
    (fun t => t.run = .faulted ∧ t.faultData = 0x08) = true := by decide

/-- V58 and V59: JNE not taken on EQUAL. -/
theorem test_v58_jne :
    (nextIs (step ((withCode (at0 0x14 [(3, 0x0C)] []) [0x56, 0x03]).setFl 0b010)) (fun t => t.pc = 0x0C) &&
     nextIs (step ((withCode (at0 0x14 [(3, 0x0C)] []) [0x56, 0x03]).setFl 0b001)) (fun t => t.pc = 0x16)) = true := by
  decide

/-- V5A: before any CMP, JNE is taken. -/
theorem test_v5A_jne_before_cmp : nextIs (step (withCode (at0 0x14 [(3, 0x0C)] []) [0x56, 0x03]))
    (fun t => t.pc = 0x0C) = true := by decide

/-- V61: LS-8's LD is an unknown opcode. -/
theorem test_v61_unknown_opcode : nextIs (step (withCode (at0 0x00 [] []) [0x83, 0x00, 0x01]))
    (fun t => t.run = .faulted ∧ t.faultCause = 1 ∧ t.faultAddr = 0x00 ∧ t.faultData = 0x83 ∧ t.pc = 0x00 ∧
      t.endStatus = some 1) = true := by decide

/-! ## Interfaces -/

/-- The worked example of 30_encoding.md R96: comments, a comment-only tail, the image. -/
theorem test_loader_example :
    loadProgram "10000010 # LDI R0,8\n00000000 #\n\t 00001000\n\n# only a comment\n01000111".toList =
      .ok [0x82, 0x00, 0x08, 0x47] := by rfl

/-- A literal of seven digits, and one with a stray character, are malformed (30_encoding.md R95). -/
theorem test_loader_refuses :
    loadProgram "1000001".toList = .error (.malformedLine "1000001".toList) ∧
    loadProgram "10000010\n1000 0010".toList = .error (.malformedLine "1000 0010".toList) := ⟨rfl, rfl⟩

/-- The sink's decimal lines: V12 to V14 (41_system_io.md R131). -/
theorem test_sink_lines : sinkLine 17 = ['1', '7'] ∧ sinkLine 244 = ['2', '4', '4'] ∧ sinkLine 0 = ['0'] := by decide

/-- The spec's notation (30_encoding.md R91). -/
theorem test_assembly_text : (Instr.ldi 0 8).text = "LDI R0, 8" ∧ Instr.hlt.text = "HLT" ∧ (Instr.st 0 1).text = "ST R0, R1" := by
  decide

/-- The cell just written stays canonical, and writing zero removes it. -/
theorem test_memory_canonical :
    Memory.write (Memory.write [] 5 1) 3 2 = [(3, 2), (5, 1)] ∧ Memory.write (Memory.write [] 5 1) 5 0 = [] := by decide

/-- The host's placement makes the next step run the word, from a state that has stopped as well. -/
theorem test_withFetchWord_runs : nextIs (step ((State.reset.halt).withFetchWord 16 0x0647)) (fun t => t.out = [244]) = true := by
  decide

/-! ## Witnesses: inputs that meet all the hypotheses of each obligation, a clause at a time -/

/-- The last state a sequence of instructions leaves has the property. -/
def endIs (is : List Instr) (s : State) (p : State → Bool) : Bool := (execAll is s).any p

theorem witness_DecodedBytesAreTheEncoding : decodeBytes defaultOpcodeMap [0x84, 0, 7, 9] = .ok (.st 0 7, [9]) := rfl

theorem witness_StepRunsTheDecodedInstruction :
    ∃ s : State, s.run = .running ∧
      decode defaultOpcodeMap (s.load s.pc) (s.load (s.pc + 1)) (s.load (s.pc + 2)) = .ok (.ldi 7 0) :=
  ⟨withCode (at0 0xFE [] []) [0x82, 7, 0], rfl, rfl⟩

/-- At the top of memory, where the operand bytes wrap. -/
theorem witness_EncodedInstructionAtPcRuns :
    ∃ s : State, s.run = .running ∧
      ∀ k (h : k < (encode defaultOpcodeMap (.ldi 7 5)).length),
        s.load (s.pc + BitVec.ofNat 8 k) = (encode defaultOpcodeMap (.ldi 7 5))[k] :=
  ⟨withCode (at0 0xFF [] []) [0x82, 7, 5], rfl, by decide⟩

theorem witness_UnknownOpcodeFaults :
    State.reset.run = .running ∧ ∀ m, defaultOpcodeMap.byteOf m ≠ State.reset.load State.reset.pc :=
  ⟨rfl, fun m => by cases m <;> decide⟩

theorem witness_ZeroCellStopsTheRun : State.reset.run = .running ∧ State.reset.load State.reset.pc = 0 := by decide

theorem witness_StoppedEngineHasNoStep :
    State.reset.halt.run = .halted ∧ (State.reset.takeFault .unknownOpcode 0).run = .faulted := by decide

theorem witness_RunningEngineAlwaysSteps :
    State.reset.run = .running ∧ nextIs (step State.reset) (fun _ => true) = true ∧
      nextIs (step State.reset.halt) (fun _ => true) = false := by decide

theorem witness_CycleIsThePseudocode : State.reset.run = .running := rfl

/-- The longest image that fits with its last cell, one byte more, and the cell above an image of 255 bytes. -/
theorem witness_LaunchPlacesTheImage :
    ((List.replicate 256 (7 : Byte)).length ≤ 256 ∧ 255 < (List.replicate 256 (7 : Byte)).length) ∧
      256 < (List.replicate 257 (7 : Byte)).length ∧ (List.replicate 255 (7 : Byte)).length ≤ (255 : Byte).toNat := by
  rw [List.length_replicate, List.length_replicate, List.length_replicate]
  decide

/-- Two histories of one memory. -/
theorem witness_CanonicalMemoryIsUnique :
    (Memory.write (Memory.write [] 255 1) 0 2).wf ∧ (Memory.write (Memory.write [] 0 2) 255 1).wf ∧
      ∀ a : Byte, (Memory.write (Memory.write [] 255 1) 0 2).read a = (Memory.write (Memory.write [] 0 2) 255 1).read a := by
  decide

/-- Seven digits, and eight characters of which one is no digit before a comment. -/
theorem witness_MalformedLineRefusesTheLoad :
    (stripLine ['1', '0', '1', '0', '1', '0', '1'] ≠ [] ∧ (stripLine ['1', '0', '1', '0', '1', '0', '1']).length ≠ 8) ∧
    (stripLine ['1', '0', '1', '0', '1', '0', '1', 'x', ' ', '#'] ≠ [] ∧
      ¬∀ c ∈ stripLine ['1', '0', '1', '0', '1', '0', '1', 'x', ' ', '#'], c = '0' ∨ c = '1') := by
  simp [stripLine, isBlank]

/-- The hypotheses of the results of PRN, LDI and the jumps: the lowest and the highest register index. -/
theorem witness_PrnResult : (0 : Byte).toNat < 8 ∧ (7 : Byte).toNat < 8 := by decide

theorem witness_LdiResult : (0 : Byte).toNat < 8 ∧ (7 : Byte).toNat < 8 := by decide

theorem witness_StResult : (0 : Byte).toNat < 8 ∧ (7 : Byte).toNat < 8 := by decide

theorem witness_AddMulResult : (0 : Byte).toNat < 8 ∧ (7 : Byte).toNat < 8 := by decide

/-- The three orders of two registers, at values that meet. -/
theorem witness_CmpResult :
    let s := at0 0 [(0, 254), (1, 255), (7, 255)] []
    (0 : Byte).toNat < 8 ∧ (7 : Byte).toNat < 8 ∧ s.regs[0].toNat < s.regs[7].toNat ∧ s.regs[0].toNat < s.regs[1].toNat ∧
      s.regs[1] = s.regs[7] := by decide

/-- SP at its last slot, with register 6 and with another one. -/
theorem witness_PushResult : (6 : Byte).toNat < 8 ∧ (7 : Byte).toNat < 8 ∧ (at0 0 [(6, 1)] []).sp ≠ 0 := by decide

theorem witness_PopResult : (6 : Byte).toNat < 8 ∧ (7 : Byte).toNat < 8 := by decide

theorem witness_CallResult : (6 : Byte).toNat < 8 ∧ (7 : Byte).toNat < 8 ∧ (at0 0 [(6, 1)] []).sp ≠ 0 := by decide

theorem witness_JumpResults :
    (7 : Byte).toNat < 8 ∧ (State.reset.setFl 0b001).fl.getLsbD 0 = true ∧ State.reset.fl.getLsbD 0 = false := by decide

/-- The first bad index as `opA`, and as `opB` after the last good `opA`. -/
theorem witness_InvalidRegisterIndexFaults :
    7 < (8 : Byte).toNat ∧ (7 : Byte).toNat < 8 ∧ 7 < (255 : Byte).toNat ∧
      Instr.jeq 8 ∈ ([.ldi 8 0, .prn 8, .add 8 0, .mul 8 0, .cmp 8 0, .push 8, .pop 8, .call 8, .jmp 8, .jeq 8, .jne 8, .st 8 0] :
        List Instr) ∧
      Instr.st 7 8 ∈ ([.add 7 8, .mul 7 8, .cmp 7 8, .st 7 8] : List Instr) := by decide

theorem witness_StackOverflowFaults :
    (7 : Byte).toNat < 8 ∧ (at0 0 [(6, 0)] []).sp = 0 ∧ Instr.call 7 ∈ ([.push 7, .call 7] : List Instr) := by decide

theorem witness_WellFormedInstructionsComplete :
    (Instr.push 7).wf = true ∧ (Instr.push 7).hasStackRoom State.reset ∧ State.reset.run = .running :=
  ⟨rfl, fun _ => by decide, rfl⟩

/-- One fault of each cause a program can raise. -/
theorem witness_FaultsArePrecise :
    nextIs (step State.reset) (fun t => t.run = .faulted ∧ t.faultCause = 1) = true ∧
    nextIs (step (withCode State.reset [0x47, 0x08])) (fun t => t.run = .faulted ∧ t.faultCause = 3) = true ∧
    nextIs (step (withCode (at0 0 [(6, 0)] []) [0x45, 0])) (fun t => t.run = .faulted ∧ t.faultCause = 4) = true := by decide

/-- A register that is neither read nor written, and one that is written and not read. -/
theorem witness_RegistersReadAndWritten :
    (Instr.pop 0).wf = true ∧ nextIs (exec (.pop 0) State.reset) (fun _ => true) = true ∧
      (7 : Reg) ∉ (Instr.pop 0).writtenRegs ∧ (7 : Reg) ∉ (Instr.pop 0).readRegs State.reset ∧
      (0 : Reg) ∈ (Instr.pop 0).writtenRegs ∧ (0 : Reg) ∉ (Instr.pop 0).readRegs State.reset := by decide

/-- CMP; an instruction that reads no flag; JEQ under two values of `FL` that agree on `FL.E`. -/
theorem witness_FlagsReadAndWritten :
    nextIs (exec (.cmp 0 7) State.reset) (fun t => t.fl = 0b001) = true ∧ (Instr.cmp 0 7).wf = true ∧
    nextIs (exec (.add 0 7) State.reset) (fun _ => true) = true ∧ (∀ a b, Instr.add 0 7 ≠ .cmp a b) ∧
      (∀ a, Instr.add 0 7 ≠ .jeq a ∧ Instr.add 0 7 ≠ .jne a) ∧
    nextIs (exec (.jeq 7) State.reset) (fun _ => true) = true ∧ (∀ a b, Instr.jeq 7 ≠ .cmp a b) ∧
      (0b100 : BitVec 3).getLsbD 0 = State.reset.fl.getLsbD 0 :=
  ⟨by decide, by decide, by decide, nofun, fun _ => ⟨nofun, nofun⟩, by decide, nofun, by decide⟩

theorem witness_OutputReadAndWritten :
    nextIs (exec (.prn 7) State.reset) (fun t => t.out = [0]) = true ∧ (7 : Byte).toNat < 8 ∧
    nextIs (exec .ret State.reset) (fun _ => true) = true ∧ ∀ a, Instr.ret ≠ .prn a :=
  ⟨by decide, by decide, by decide, nofun⟩

/-- The three alternatives: HLT, an instruction that completes, and one that faults. -/
theorem witness_RunStateChanges :
    nextIs (exec .hlt State.reset) (fun t => t.run = .halted) = true ∧
    nextIs (exec .ret State.reset) (fun t => t.run = .running) = true ∧
    nextIs (exec (.jmp 8) State.reset) (fun t => t.run = .faulted) = true := by decide

/-- A store and an address outside it, a push at the last slot, an instruction that stores nothing, and one that faults. -/
theorem witness_MemoryFrame :
    (7 : Byte).toNat < 8 ∧ nextIs (exec (.st 7 0) (at0 0 [(7, 255), (0, 1)] [])) (fun t => t.load 255 = 1) = true ∧
      (0 : Byte) ≠ (at0 0 [(7, 255), (0, 1)] []).regs[7] ∧
    nextIs (exec (.push 7) (at0 0 [(6, 1), (7, 9)] [])) (fun t => t.load 0 = 9) = true ∧
      (1 : Byte) ≠ (at0 0 [(6, 1)] []).sp - 1 ∧
    nextIs (exec .ret State.reset) (fun _ => true) = true ∧
    (Instr.st 0 8).wf = false ∧ nextIs (exec (.st 0 8) State.reset) (fun _ => true) = true := by decide

/-- The five instructions with a target of their own, CALL with register 6 among them, and one that advances. -/
theorem witness_ProgramCounterAfterEachInstruction :
    (Instr.call 6).wf = true ∧ (Instr.call 6).hasStackRoom State.reset ∧
      nextIs (exec (.call 6) State.reset) (fun t => t.pc = 0xF3) = true ∧
    nextIs (exec .ret State.reset) (fun t => t.pc = 0) = true ∧
    nextIs (exec (.jmp 6) State.reset) (fun t => t.pc = 0xF4) = true ∧
    nextIs (exec (.jeq 6) State.reset) (fun t => t.pc = 2) = true ∧
    nextIs (exec (.jne 6) State.reset) (fun t => t.pc = 0xF4) = true ∧
    nextIs (exec (.add 0 0) State.reset) (fun t => t.pc = 3) = true :=
  ⟨rfl, fun _ => by decide, by decide, by decide, by decide, by decide, by decide, by decide⟩

/-- One register, and two. -/
theorem witness_PushThenPopCopies :
    (0 : Byte).toNat < 8 ∧ (7 : Byte).toNat < 8 ∧ (0 : Byte) ≠ 6 ∧ (7 : Byte) ≠ 6 ∧ (at0 0 [(6, 1)] []).sp ≠ 0 ∧
      endIs [.push 7, .pop 7] (at0 0 [(7, 0x77)] []) (fun t => t.reg 7 = 0x77 ∧ t.sp = 0xF4) = true := by decide

theorem witness_RegisterSixAsOperand : (at0 0 [(6, 1)] []).sp ≠ 0 := by decide

/-- The RET right after the CALL. -/
theorem witness_CallThenReturnResumes :
    (7 : Byte).toNat < 8 ∧ (at0 0 [(6, 1)] []).sp ≠ 0 ∧
      ∃ u v : State, exec (.call 7) (at0 0 [(6, 1)] []) = .next u ∧ v.sp = u.sp ∧ v.load v.sp = u.load u.sp :=
  ⟨by decide, by decide, _, _, rfl, rfl, rfl⟩

/-- The deepest nesting that a stack of three slots has room for. -/
theorem witness_NestedCallsReturnInReverse :
    (7 : Byte).toNat < 8 ∧ (∀ a ∈ ([0, 6] : List Byte), a.toNat < 8) ∧
      ([0, 6] : List Byte).length < (at0 0 [(6, 3)] []).sp.toNat := by decide

/-- ST into each of the three bytes of the next fetch, the first across the end of memory. -/
theorem witness_StoreIsSeenByTheNextFetch_st :
    (7 : Byte).toNat < 8 ∧
    nextIs (exec (.st 7 0) (at0 0xFD [(7, 0), (0, 9)] [])) (fun t => t.pc = 0 ∧ t.fetch.op = 9) = true ∧
    nextIs (exec (.st 7 0) (at0 0 [(7, 4), (0, 9)] [])) (fun t => t.pc + 1 = 4 ∧ t.fetch.opA = 9) = true ∧
    nextIs (exec (.st 7 0) (at0 0 [(7, 5), (0, 9)] [])) (fun t => t.pc + 2 = 5 ∧ t.fetch.opB = 9) = true := by decide

/-- PUSH and CALL at the last slot of the stack and at the first, into each of the three bytes of the next fetch. -/
theorem witness_StoreIsSeenByTheNextFetch_stack :
    (7 : Byte).toNat < 8 ∧ (at0 0 [(6, 1)] []).sp ≠ 0 ∧ State.reset.sp ≠ 0 ∧
    nextIs (exec (.push 7) (at0 0xFE [(6, 1), (7, 9)] [])) (fun t => t.pc = 0 ∧ t.fetch.op = 9) = true ∧
    nextIs (exec (.push 7) (at0 0xF0 [(7, 9)] [])) (fun t => t.pc + 1 = 0xF3 ∧ t.fetch.opA = 9) = true ∧
    nextIs (exec (.push 6) (at0 0xEF [] [])) (fun t => t.pc + 2 = 0xF3 ∧ t.fetch.opB = 0xF3) = true ∧
    nextIs (exec (.call 6) State.reset) (fun t => t.pc = 0xF3 ∧ t.fetch.op = 2) = true ∧
    nextIs (exec (.call 7) (at0 0 [(7, 0xF2)] [])) (fun t => t.pc + 1 = 0xF3 ∧ t.fetch.opA = 2) = true ∧
    nextIs (exec (.call 7) (at0 0 [(7, 0xF1)] [])) (fun t => t.pc + 2 = 0xF3 ∧ t.fetch.opB = 2) = true := by decide

/-- A register that is only written, one that is only read, and one that is both. -/
theorem witness_RegistersOfTheTableMatter :
    (Instr.pop 7).wf = true ∧ (7 : Reg) ∈ (Instr.pop 7).writtenRegs ∧
    (Instr.cmp 0 7).wf = true ∧ (∀ a, Instr.cmp 0 7 ≠ .cmp a a) ∧ (7 : Reg) ∈ (Instr.cmp 0 7).readRegs State.reset ∧
    (Instr.jeq 7).wf = true ∧ (∀ a, Instr.jeq 7 ≠ .cmp a a) ∧ (7 : Reg) ∈ (Instr.jeq 7).readRegs (State.reset.setFl 0b001) ∧
    (Instr.ret).wf = true ∧ (6 : Reg) ∈ Instr.ret.writtenRegs ∧ (6 : Reg) ∈ Instr.ret.readRegs State.reset :=
  ⟨rfl, by decide, rfl, fun _ h => absurd ((Instr.cmp.inj h).1.trans (Instr.cmp.inj h).2.symm) (by decide), by decide, rfl, nofun, by decide, rfl, by decide, by decide⟩

/-- A state that meets the invariant and steps to a fault, and one that steps to an ordinary state. -/
theorem witness_StepKeepsInvariant :
    State.reset.Inv ∧ nextIs (step State.reset) (fun t => t.run = .faulted ∧ t.Inv) = true ∧
    (withCode State.reset [0xA7, 0, 7]).Inv ∧
      nextIs (step (withCode State.reset [0xA7, 0, 7])) (fun t => t.fl = 0b001 ∧ t.Inv) = true := by decide

theorem witness_EveryVisitedStateMeetsInvariant :
    ∃ s t : State, launch [0x01] = .ok s ∧ Reaches defaultOpcodeMap s t ∧ t.run = .halted :=
  ⟨_, _, rfl, .next (.refl _) rfl, rfl⟩

theorem witness_StoppedStateIsFinal :
    State.reset.halt.ended ∧ Reaches defaultOpcodeMap State.reset.halt State.reset.halt := ⟨nofun, .refl _⟩

theorem witness_OutputOnlyGrows :
    ∃ s t : State, launch [0x47, 0x06] = .ok s ∧ Reaches defaultOpcodeMap s t ∧ t.out = [244] :=
  ⟨_, _, rfl, .next (.refl _) rfl, rfl⟩

/-- A state of each kind that meets the invariant. -/
theorem witness_EndStatusTellsGoodEnds :
    State.reset.Inv ∧ State.reset.halt.Inv ∧ (State.reset.takeFault .unknownOpcode 0).Inv ∧
      (State.reset.takeFault .unknownOpcode 0).run = .faulted :=
  ⟨by decide, by decide, by decide, rfl⟩

end Sys2Proof.Tests
end

section
/-! SUPPORT. Encoding and decoding are inverse to each other under every opcode map (30_encoding.md R80 to R84, R90).
`Mnemonic.withOperands` is the common form of both: every instruction is its mnemonic with two operand latches, and its
encoding is the opcode byte and as many of the latches as the mnemonic has operands. -/

namespace Sys2Proof

/-! ## The instruction as its mnemonic and two operand latches -/

theorem Mnemonic.operandCount_le_two (m : Mnemonic) : m.operandCount ≤ 2 := by cases m <;> decide

theorem Instr.eq_withOperands (i : Instr) : ∃ opA opB, i = i.mnemonic.withOperands opA opB := by
  cases i with
  | hlt | ret => exact ⟨0, 0, rfl⟩
  | prn a | push a | pop a | call a | jmp a | jeq a | jne a => exact ⟨a, 0, rfl⟩
  | ldi a b | add a b | mul a b | cmp a b | st a b => exact ⟨a, b, rfl⟩

@[simp] theorem encode_withOperands (map : OpcodeMap) (m : Mnemonic) (opA opB : Byte) :
    encode map (m.withOperands opA opB) = map.byteOf m :: [opA, opB].take m.operandCount := by
  cases m <;> rfl

/-- The latches past the operand count are ignored (30_encoding.md R84), so the bytes that follow the operands of an
instruction do not change it. -/
theorem Mnemonic.withOperands_take_append (m : Mnemonic) (opA opB : Byte) (rest : List Byte) :
    m.withOperands (([opA, opB].take m.operandCount ++ rest).getD 0 0)
      (([opA, opB].take m.operandCount ++ rest).getD 1 0) = m.withOperands opA opB := by
  cases m <;> rfl

/-- The two latches, filled from a list with at least `n` bytes, begin with the first `n` bytes of the list. -/
theorem take_latches : ∀ {n : Nat} {bytes : List Byte}, n ≤ 2 → n ≤ bytes.length →
    [bytes.getD 0 0, bytes.getD 1 0].take n = bytes.take n
  | 0, _, _, _ => rfl
  | 1, _ :: _, _, _ => rfl
  | 2, _ :: _ :: _, _, _ => rfl
  | 2, [_], _, hlen => absurd hlen (by simp)
  | _ + 3, _, hn, _ => absurd hn (by omega)

/-! ## What decoding a byte list answers -/

/-- Decoding succeeds exactly when the first byte is a mnemonic's and that mnemonic's operands follow it; the answer is
then determined. -/
theorem decodeBytes_cons_eq_ok (map : OpcodeMap) (op : Byte) (bytes : List Byte) (i : Instr) (rest : List Byte) :
    decodeBytes map (op :: bytes) = .ok (i, rest) ↔
      ∃ m : Mnemonic, map.byteOf m = op ∧ m.operandCount ≤ bytes.length ∧
        m.withOperands (bytes.getD 0 0) (bytes.getD 1 0) = i ∧ bytes.drop m.operandCount = rest := by
  simp only [← map.lookup_eq_some, decodeBytes]
  cases map.lookup op with
  | none => simp
  | some m =>
    by_cases hlen : m.operandCount ≤ bytes.length <;> simp [hlen]

theorem decodeBytes_encode_append (map : OpcodeMap) (i : Instr) (rest : List Byte) :
    decodeBytes map (encode map i ++ rest) = .ok (i, rest) := by
  obtain ⟨opA, opB, hi⟩ := i.eq_withOperands
  generalize i.mnemonic = m at hi
  subst hi
  have hlen : ([opA, opB].take m.operandCount).length = m.operandCount :=
    List.length_take_of_le m.operandCount_le_two
  rw [encode_withOperands, List.cons_append, decodeBytes_cons_eq_ok]
  refine ⟨m, rfl, ?_, m.withOperands_take_append opA opB rest, List.drop_left' hlen⟩
  rw [List.length_append, hlen]
  exact Nat.le_add_right _ _

theorem eq_encode_append_of_decodeBytes {map : OpcodeMap} {bytes rest : List Byte} {i : Instr}
    (h : decodeBytes map bytes = .ok (i, rest)) : bytes = encode map i ++ rest := by
  match bytes with
  | [] => exact absurd h nofun
  | op :: bytes =>
    obtain ⟨m, rfl, hlen, rfl, rfl⟩ := (decodeBytes_cons_eq_ok ..).mp h
    rw [encode_withOperands, take_latches m.operandCount_le_two hlen, List.cons_append, List.take_append_drop]

/-- Settles O3: an instruction is its mnemonic with two latches, and decoding reads back those that its encoding holds. -/
theorem decodeOfEncodeIsIdentity : Obligations.DecodeOfEncodeIsIdentity := decodeBytes_encode_append

/-- Settles O4: a successful decoding splits the bytes into an opcode byte, the operands it latches and the rest. -/
theorem decodedBytesAreTheEncoding : Obligations.DecodedBytesAreTheEncoding :=
  fun _ _ _ _ => eq_encode_append_of_decodeBytes

end Sys2Proof
end

section
/-! SUPPORT. Everything an instruction can do, said once as the relation `Executes`: `exec_eq_next_iff` ties it to `exec`.
A property of every instruction is then a case split over the effects and the two fault entries. -/

namespace Sys2Proof

/-- The register-index operands in the order in which they are checked (30_encoding.md R84; 40_cycle.md R116). -/
def Instr.indexOperands : Instr → List Byte
  | .hlt | .ret => []
  | .ldi a _ | .prn a | .push a | .pop a | .call a | .jmp a | .jeq a | .jne a => [a]
  | .add a b | .mul a b | .cmp a b | .st a b => [a, b]

/-- The operand that `InvalidRegisterIndex` records, if there is one (60_exceptions.md R202). -/
def Instr.firstBadIndex (i : Instr) : Option Byte := i.indexOperands.find? (fun b => !legalIndex b)

theorem Instr.wf_eq_all_legalIndex (i : Instr) : i.wf = i.indexOperands.all legalIndex := by
  cases i <;> simp [Instr.wf, Instr.indexOperands]

theorem Instr.wf_iff_firstBadIndex_eq_none (i : Instr) : i.wf = true ↔ i.firstBadIndex = none := by
  simp [Instr.wf_eq_all_legalIndex, Instr.firstBadIndex]

theorem Instr.firstBadIndex_of_wf {i : Instr} {b : Byte} (hwf : i.wf = true) : i.firstBadIndex ≠ some b := by
  simp [i.wf_iff_firstBadIndex_eq_none.mp hwf]

namespace Machine

/-! ## Reading a register, SP or a cell after an update -/

@[simp] theorem State.sp_setReg_spIndex (s : State) (v : Byte) : (s.setReg Config.spIndex v).sp = v := s.sp_setSp v

theorem State.sp_setReg (s : State) (r : Reg) (v : Byte) :
    (s.setReg r v).sp = if Config.spIndex = r then v else s.sp := s.reg_setReg r _ v

@[simp] theorem State.reg_spIndex (s : State) : s.reg Config.spIndex = s.sp := rfl

theorem State.reg_setSp (s : State) (q : Reg) (v : Byte) :
    (s.setSp v).reg q = if q = Config.spIndex then v else s.reg q := s.reg_setReg _ q v

theorem State.load_store (s : State) (x y v : Byte) : (s.store x v).load y = if y = x then v else s.load y :=
  s.mem.read_write x v y

/-! ## The checks before execution -/

theorem legalIndex_eq_false_iff (b : Byte) : legalIndex b = false ↔ 7 < b.toNat := by
  rw [← Bool.not_eq_true, legalIndex_iff, Nat.not_lt, Nat.succ_le_iff]

theorem toNat_of_firstBadIndex {i : Instr} {b : Byte} (h : i.firstBadIndex = some b) : 7 < b.toNat :=
  (legalIndex_eq_false_iff b).mp (by simpa using List.find?_some h)

theorem exists_regOf_of_legalIndex {a : Byte} (h : legalIndex a = true) : ∃ ra, regOf a = some ra :=
  ⟨_, regOf_of_lt ((legalIndex_iff a).mp h)⟩

theorem withReg_of_regOf {a : Byte} {ra : Reg} (ha : regOf a = some ra) (s : State) (k : Reg → Result) :
    withReg a s k = k ra := by
  simp [withReg, ha]

theorem withRegs_of_regOf {a b : Byte} {ra rb : Reg} (ha : regOf a = some ra) (hb : regOf b = some rb) (s : State)
    (k : Reg → Reg → Result) : withRegs a b s k = k ra rb := by
  simp [withRegs, withReg_of_regOf ha, withReg_of_regOf hb]

theorem withRegs_of_find {a b x : Byte} (h : [a, b].find? (fun b => !legalIndex b) = some x) (s : State)
    (k : Reg → Reg → Result) : withRegs a b s k = .next (s.badIndex x) := by
  have hx : legalIndex x = false := by simpa using List.find?_some h
  cases ha : legalIndex a with
  | false =>
    obtain rfl : a = x := by simpa [ha] using h
    exact withReg_of_gt ((legalIndex_eq_false_iff a).mp ha) s _
  | true =>
    obtain rfl : x = b := (List.mem_pair.mp (List.mem_of_find?_eq_some h)).resolve_left fun e => by simp [← e, hx] at ha
    exact (withReg_of_lt ((legalIndex_iff a).mp ha) s _).trans (withReg_of_gt ((legalIndex_eq_false_iff x).mp hx) s _)

/-! ## The relation -/

/-- `Executes s i t`: from `s` the instruction `i` leads to `t`, by its own effect or by one fault entry (40_cycle.md R116). -/
inductive Executes (s : State) : Instr → State → Prop
  | hlt : Executes s .hlt (s.halt.advance .hlt)
  | ldi {a imm : Byte} {ra : Reg} (ha : regOf a = some ra) : Executes s (.ldi a imm) ((s.setReg ra imm).advance .ldi)
  | prn {a : Byte} {ra : Reg} (ha : regOf a = some ra) : Executes s (.prn a) ((s.emit (s.reg ra)).advance .prn)
  | add {a b : Byte} {ra rb : Reg} (ha : regOf a = some ra) (hb : regOf b = some rb) :
      Executes s (.add a b) ((s.setReg ra (s.reg ra + s.reg rb)).advance .add)
  | mul {a b : Byte} {ra rb : Reg} (ha : regOf a = some ra) (hb : regOf b = some rb) :
      Executes s (.mul a b) ((s.setReg ra (s.reg ra * s.reg rb)).advance .mul)
  | cmp {a b : Byte} {ra rb : Reg} (ha : regOf a = some ra) (hb : regOf b = some rb) :
      Executes s (.cmp a b) ((s.setFl (compareFl (s.reg ra) (s.reg rb))).advance .cmp)
  | push {a : Byte} {ra : Reg} (ha : regOf a = some ra) (hs : s.sp ≠ 0) :
      Executes s (.push a) (((s.setSp (s.sp - 1)).store (s.sp - 1) ((s.setSp (s.sp - 1)).reg ra)).advance .push)
  | pop {a : Byte} {ra : Reg} (ha : regOf a = some ra) :
      Executes s (.pop a) ((s.setReg ra (s.load s.sp)).incSp.advance .pop)
  | call {a : Byte} {ra : Reg} (ha : regOf a = some ra) (hs : s.sp ≠ 0) :
      Executes s (.call a)
        (((s.setSp (s.sp - 1)).store (s.sp - 1) (s.nextAddress .call)).jump ((s.setSp (s.sp - 1)).reg ra))
  | ret : Executes s .ret (s.jump (s.load s.sp)).incSp
  | jmp {a : Byte} {ra : Reg} (ha : regOf a = some ra) : Executes s (.jmp a) (s.jump (s.reg ra))
  | jeq {a : Byte} {ra : Reg} (ha : regOf a = some ra) : Executes s (.jeq a) (s.jumpIf s.flagE .jeq ra)
  | jne {a : Byte} {ra : Reg} (ha : regOf a = some ra) : Executes s (.jne a) (s.jumpIf (!s.flagE) .jne ra)
  | st {a b : Byte} {ra rb : Reg} (ha : regOf a = some ra) (hb : regOf b = some rb) :
      Executes s (.st a b) ((s.store (s.reg ra) (s.reg rb)).advance .st)
  | stackOverflow {i : Instr} {a : Byte} {ra : Reg} (hi : i = .push a ∨ i = .call a) (ha : regOf a = some ra)
      (hs : s.sp = 0) : Executes s i (s.takeFault .stackOverflow 0)
  | badIndex {i : Instr} {b : Byte} (hb : i.firstBadIndex = some b) : Executes s i (s.badIndex b)

theorem exec_of_firstBadIndex {i : Instr} {b : Byte} (h : i.firstBadIndex = some b) (s : State) :
    exec i s = .next (s.badIndex b) := by
  have hlt := toNat_of_firstBadIndex h
  cases i with
  | hlt | ret => exact absurd h nofun
  | ldi a _ | prn a | push a | pop a | call a | jmp a | jeq a | jne a =>
    obtain rfl : b = a := List.mem_singleton.mp (List.mem_of_find?_eq_some h)
    exact withReg_of_gt hlt s _
  | add _ _ | mul _ _ | cmp _ _ | st _ _ => exact withRegs_of_find h s _

theorem Executes.exec_eq {s t : State} {i : Instr} (h : Executes s i t) : exec i s = .next t := by
  cases h with
  | hlt | ret => rfl
  | ldi ha | prn ha | pop ha | jmp ha | jeq ha | jne ha => exact withReg_of_regOf ha s _
  | add ha hb | mul ha hb | cmp ha hb | st ha hb => exact withRegs_of_regOf ha hb s _
  | push ha hs => exact (withReg_of_regOf ha s _).trans ((withStackSlot_of_ne hs _).trans (by rw [State.sp_setSp]))
  | call ha hs => exact (withReg_of_regOf ha s _).trans ((withStackSlot_of_ne hs _).trans (by rw [State.sp_setSp]; rfl))
  | stackOverflow hi ha hs =>
    obtain rfl | rfl := hi <;> exact (withReg_of_regOf ha s _).trans (withStackSlot_of_eq hs _)
  | badIndex hb => exact exec_of_firstBadIndex hb s

/-- Every instruction leads somewhere from every state: no meaning ends in a refusal. -/
theorem Executes.exists_next (s : State) (i : Instr) : ∃ t, Executes s i t := by
  cases hbad : i.firstBadIndex with
  | some b => exact ⟨_, .badIndex hbad⟩
  | none =>
    have hwf : i.indexOperands.all legalIndex = true := by
      rw [← i.wf_eq_all_legalIndex, i.wf_iff_firstBadIndex_eq_none, hbad]
    have hreg : ∀ a ∈ i.indexOperands, ∃ ra, regOf a = some ra := fun a ha =>
      exists_regOf_of_legalIndex (List.all_eq_true.mp hwf a ha)
    cases i with
    | hlt => exact ⟨_, .hlt⟩
    | ret => exact ⟨_, .ret⟩
    | ldi a _ => exact (hreg a (.head _)).elim fun _ ha => ⟨_, .ldi ha⟩
    | prn a => exact (hreg a (.head _)).elim fun _ ha => ⟨_, .prn ha⟩
    | pop a => exact (hreg a (.head _)).elim fun _ ha => ⟨_, .pop ha⟩
    | jmp a => exact (hreg a (.head _)).elim fun _ ha => ⟨_, .jmp ha⟩
    | jeq a => exact (hreg a (.head _)).elim fun _ ha => ⟨_, .jeq ha⟩
    | jne a => exact (hreg a (.head _)).elim fun _ ha => ⟨_, .jne ha⟩
    | push a =>
      obtain ⟨ra, ha⟩ := hreg a (.head _)
      by_cases hs : s.sp = 0
      · exact ⟨_, .stackOverflow (.inl rfl) ha hs⟩
      · exact ⟨_, .push ha hs⟩
    | call a =>
      obtain ⟨ra, ha⟩ := hreg a (.head _)
      by_cases hs : s.sp = 0
      · exact ⟨_, .stackOverflow (.inr rfl) ha hs⟩
      · exact ⟨_, .call ha hs⟩
    | add a b =>
      obtain ⟨⟨_, ha⟩, ⟨_, hb⟩⟩ := And.intro (hreg a (.head _)) (hreg b (.tail _ (.head _)))
      exact ⟨_, .add ha hb⟩
    | mul a b =>
      obtain ⟨⟨_, ha⟩, ⟨_, hb⟩⟩ := And.intro (hreg a (.head _)) (hreg b (.tail _ (.head _)))
      exact ⟨_, .mul ha hb⟩
    | cmp a b =>
      obtain ⟨⟨_, ha⟩, ⟨_, hb⟩⟩ := And.intro (hreg a (.head _)) (hreg b (.tail _ (.head _)))
      exact ⟨_, .cmp ha hb⟩
    | st a b =>
      obtain ⟨⟨_, ha⟩, ⟨_, hb⟩⟩ := And.intro (hreg a (.head _)) (hreg b (.tail _ (.head _)))
      exact ⟨_, .st ha hb⟩

/-- The relation is the model's `exec`: it has the same next states. -/
theorem exec_eq_next_iff {s t : State} {i : Instr} : exec i s = .next t ↔ Executes s i t := by
  refine ⟨fun h => ?_, Executes.exec_eq⟩
  obtain ⟨u, hu⟩ := Executes.exists_next s i
  obtain rfl : t = u := Host.Outcome.next.inj (h.symm.trans hu.exec_eq)
  exact hu

end Machine

end Sys2Proof
end

section
/-! SUPPORT. The invariant of the state, and what a run keeps (10_state.md R29, R33, R34, R36, R38). -/

namespace Sys2Proof.Machine

/-! ## What one instruction keeps -/

theorem Executes.mem_wf {s t : State} {i : Instr} (h : Executes s i t) (hs : s.mem.wf) : t.mem.wf := by
  cases h with
  | push | call | st => exact Memory.wf_write _ _ hs
  | _ => exact hs

theorem Executes.fl_eq {s t : State} {i : Instr} (h : Executes s i t) (hi : ∀ a b, i ≠ .cmp a b) : t.fl = s.fl := by
  cases h with
  | cmp => exact absurd rfl (hi _ _)
  | _ => rfl

theorem Executes.legalFl {s t : State} {i : Instr} (h : Executes s i t) (hs : legalFl s.fl) : legalFl t.fl := by
  cases h with
  | cmp => exact legalFl_compareFl _ _
  | _ => exact hs

/-- An instruction that takes no fault leaves the engine not FAULTED and the fault registers as they were. -/
theorem State.faultRegsOk_of_eq {s t : State} (hs : s.faultRegsOk) (hrun : s.run = .running) (ht : t.run ≠ .faulted)
    (hc : t.faultCause = s.faultCause) (ha : t.faultAddr = s.faultAddr) (hd : t.faultData = s.faultData) :
    t.faultRegsOk := by
  obtain ⟨_, hc', ha', hd'⟩ | ⟨hf, _⟩ := hs
  · exact .inl ⟨ht, hc.trans hc', ha.trans ha', hd.trans hd'⟩
  · exact absurd (hrun.symm.trans hf) nofun

theorem Executes.faultRegsOk {s t : State} {i : Instr} (h : Executes s i t) (hrun : s.run = .running)
    (hs : s.faultRegsOk) : t.faultRegsOk := by
  have hne : s.run ≠ .faulted := by simp [hrun]
  cases h with
  | stackOverflow _ _ hsp => exact .inr ⟨rfl, rfl, .inr (.inr ⟨rfl, rfl, hsp⟩)⟩
  | badIndex hb => exact .inr ⟨rfl, rfl, .inr (.inl ⟨rfl, toNat_of_firstBadIndex hb⟩)⟩
  | hlt => exact State.faultRegsOk_of_eq hs hrun nofun rfl rfl rfl
  | _ => exact State.faultRegsOk_of_eq hs hrun hne rfl rfl rfl

theorem Executes.out_grows {s t : State} {i : Instr} (h : Executes s i t) : s.out <+: t.out := by
  cases h with
  | prn => exact ⟨_, rfl⟩
  | _ => rfl

/-! ## What one cycle keeps -/

theorem cycle_keeps_inv {map : OpcodeMap} {s t : State} (hs : s.Inv) (h : cycle map s = .next t) : t.Inv := by
  obtain ⟨hmem, hfl, hfault⟩ := hs
  obtain ⟨hrun, ⟨i, _, he⟩ | ⟨_, rfl⟩⟩ := cycle_next_cases h
  · have hx := exec_eq_next_iff.mp he
    exact ⟨hx.mem_wf hmem, hx.legalFl hfl, hx.faultRegsOk hrun hfault⟩
  · exact ⟨hmem, hfl, .inr ⟨rfl, rfl, .inl ⟨rfl, rfl⟩⟩⟩

theorem cycle_out_grows {map : OpcodeMap} {s t : State} (h : cycle map s = .next t) : s.out <+: t.out := by
  obtain ⟨_, ⟨i, _, he⟩ | ⟨_, rfl⟩⟩ := cycle_next_cases h
  · exact (exec_eq_next_iff.mp he).out_grows
  · rfl

/-! ## What a run keeps -/

/-- The one induction over runs: what every step keeps holds of every state a run visits. -/
theorem Reaches.keeps {map : OpcodeMap} {P : State → Prop} (hstep : ∀ s t, P s → cycle map s = .next t → P t)
    {s t : State} (h : Reaches map s t) (hs : P s) : P t := by
  induction h with
  | refl => exact hs
  | next _ hc ih => exact hstep _ _ ih hc

theorem eq_of_reaches_of_ended {map : OpcodeMap} {s t : State} (hs : s.ended) (h : Reaches map s t) : t = s :=
  h.keeps (P := (· = s)) (fun _ _ hu hc => absurd (hu ▸ (cycle_next_cases hc).1) hs) rfl

theorem Reaches.out_grows {map : OpcodeMap} {s t : State} (h : Reaches map s t) : s.out <+: t.out :=
  h.keeps (P := fun u => s.out <+: u.out) (fun _ _ hu hc => hu.trans (cycle_out_grows hc)) (by rfl)

/-! ## The end status -/

theorem State.endStatus_of_running {s : State} (h : s.run = .running) : s.endStatus = none := by
  simp [State.endStatus, h]

theorem State.endStatus_of_halted {s : State} (h : s.run = .halted) : s.endStatus = some 0 := by
  simp [State.endStatus, h]

theorem State.endStatus_of_faulted {s : State} (h : s.run = .faulted) : s.endStatus = some s.faultCause := by
  simp [State.endStatus, h]

theorem State.faultReport_of_faulted {s : State} (h : s.run = .faulted) :
    s.faultReport = some (s.faultAddr, s.faultData) := by
  simp [State.faultReport, h]

theorem State.faultCause_ne_zero {s : State} (hs : s.faultRegsOk) (h : s.run = .faulted) : s.faultCause ≠ 0 := by
  obtain ⟨hne, _⟩ | ⟨_, _, ⟨hc, _⟩ | ⟨hc, _⟩ | ⟨hc, _⟩⟩ := hs
  · exact absurd h hne
  all_goals rw [hc]; decide

/-! ## The obligations -/

/-- Settles O44: the reset state has empty memory, clear flags and clear fault registers. -/
theorem resetMeetsInvariant : Obligations.ResetMeetsInvariant :=
  ⟨Memory.wf_nil, .inl rfl, .inl ⟨nofun, rfl, rfl, rfl⟩⟩

/-- Settles O45: each part of the invariant is kept by every instruction and by the entry of `UnknownOpcode`. -/
theorem stepKeepsInvariant : Obligations.StepKeepsInvariant := fun _ _ _ => cycle_keeps_inv

/-- Settles O47: a cycle needs a RUNNING engine, so being at the stopped state is kept by every step. -/
theorem stoppedStateIsFinal : Obligations.StoppedStateIsFinal := fun _ _ _ => eq_of_reaches_of_ended

/-- Settles O48: a step appends to the output at most. -/
theorem outputOnlyGrows : Obligations.OutputOnlyGrows := fun _ _ _ => Reaches.out_grows

/-- Settles O49: by the three run states; the invariant makes the cause of a fault nonzero. -/
theorem endStatusTellsGoodEnds : Obligations.EndStatusTellsGoodEnds := by
  rintro s ⟨_, _, hfault⟩
  cases hrun : s.run with
  | running => simp [State.endStatus_of_running hrun, State.goodEnd, hrun]
  | halted => simp [State.endStatus_of_halted hrun, State.goodEnd, hrun]
  | faulted =>
    have hne := State.faultCause_ne_zero hfault hrun
    simpa [State.endStatus_of_faulted hrun, State.faultReport_of_faulted hrun, State.goodEnd, hrun] using hne

end Sys2Proof.Machine
end

section
/-! SUPPORT. Which instructions read and write the flags and the output log (10_state.md R30, R38). -/

namespace Sys2Proof.Machine

/-! ## The flags -/

/-- A legal CMP writes all of `FL`: its next state does not depend on what `FL` was. -/
theorem Executes.cmp_setFl {s t : State} {a b : Byte} (h : Executes s (.cmp a b) t) (hwf : (Instr.cmp a b).wf = true)
    (f : BitVec 3) :
    (t.fl = flLessThan ∨ t.fl = flGreaterThan ∨ t.fl = flEqual) ∧ Executes (s.setFl f) (.cmp a b) t := by
  cases h with
  | cmp ha hb =>
    refine ⟨?_, .cmp ha hb⟩
    obtain ⟨_, e⟩ | ⟨_, e⟩ | ⟨_, e⟩ := compareFl_cases (s.reg _) (s.reg _)
    · exact .inl e
    · exact .inr (.inl e)
    · exact .inr (.inr e)
  | stackOverflow hi => exact absurd hi (by simp)
  | badIndex hb => exact absurd hb (Instr.firstBadIndex_of_wf hwf)

/-- No instruction but CMP depends on `FL`, and JEQ and JNE only on `FL.E`. -/
theorem Executes.setFl {s t : State} {i : Instr} {f : BitVec 3} (h : Executes s i t) (hcmp : ∀ a b, i ≠ .cmp a b)
    (hE : (∀ a, i ≠ .jeq a ∧ i ≠ .jne a) ∨ (s.setFl f).flagE = s.flagE) : Executes (s.setFl f) i (t.setFl f) := by
  cases h with
  | cmp => exact absurd rfl (hcmp _ _)
  | hlt => exact .hlt
  | ldi ha => exact .ldi ha
  | prn ha => exact .prn ha
  | add ha hb => exact .add ha hb
  | mul ha hb => exact .mul ha hb
  | push ha hs => exact .push ha hs
  | pop ha => exact .pop ha
  | call ha hs => exact .call ha hs
  | ret => exact .ret
  | jmp ha => exact .jmp ha
  | jeq ha =>
    have e := hE.resolve_left fun h => (h _).1 rfl
    exact e ▸ .jeq ha
  | jne ha =>
    have e := hE.resolve_left fun h => (h _).2 rfl
    exact e ▸ .jne ha
  | st ha hb => exact .st ha hb
  | stackOverflow hi ha hs => exact .stackOverflow hi ha hs
  | badIndex hb => exact .badIndex hb

/-- Settles O34: by what each instruction does with `FL`. -/
theorem flagsReadAndWritten : Obligations.FlagsReadAndWritten := by
  intro i s t f he
  have h := exec_eq_next_iff.mp he
  refine ⟨h.fl_eq, ?_, fun hcmp hE => (h.setFl hcmp hE).exec_eq⟩
  rintro a b rfl hwf
  exact (h.cmp_setFl hwf f).imp_right Executes.exec_eq

/-! ## The output log -/

/-- `out <- o`: the state with another output log. -/
def State.setOut (s : State) (o : List Byte) : State := { s with out := o }

theorem Executes.out_eq {s t : State} {i : Instr} (h : Executes s i t) (hi : ∀ a, i ≠ .prn a) : t.out = s.out := by
  cases h with
  | prn => exact absurd rfl (hi _)
  | _ => rfl

/-- No instruction but PRN touches `out`. -/
theorem Executes.setOut {s t : State} {i : Instr} (h : Executes s i t) (hi : ∀ a, i ≠ .prn a) (o : List Byte) :
    Executes (s.setOut o) i (t.setOut o) := by
  cases h with
  | prn => exact absurd rfl (hi _)
  | hlt => exact .hlt
  | ldi ha => exact .ldi ha
  | add ha hb => exact .add ha hb
  | mul ha hb => exact .mul ha hb
  | cmp ha hb => exact .cmp ha hb
  | push ha hs => exact .push ha hs
  | pop ha => exact .pop ha
  | call ha hs => exact .call ha hs
  | ret => exact .ret
  | jmp ha => exact .jmp ha
  | jeq ha => exact .jeq ha
  | jne ha => exact .jne ha
  | st ha hb => exact .st ha hb
  | stackOverflow hi ha hs => exact .stackOverflow hi ha hs
  | badIndex hb => exact .badIndex hb

theorem exec_prn (s : State) {a : Byte} (ha : a.toNat < 8) :
    exec (.prn a) s = .next ((s.emit (s.reg ⟨a.toNat, ha⟩)).advance .prn) :=
  (Executes.prn (regOf_of_lt ha)).exec_eq

/-- Settles O35: PRN is known by its effect; every other instruction leaves `out` alone. -/
theorem outputReadAndWritten : Obligations.OutputReadAndWritten := by
  intro i s t o he
  have h := exec_eq_next_iff.mp he
  refine ⟨fun hi => ⟨h.out_eq hi, (h.setOut hi o).exec_eq⟩, ?_⟩
  rintro a ha rfl
  obtain rfl := Host.Outcome.next.inj ((exec_prn s ha).symm.trans he)
  exact ⟨rfl, exec_prn (s.setOut o) ha⟩

end Sys2Proof.Machine
end

section
/-! SUPPORT. No instruction reads or writes a register outside its columns (10_state.md R22). -/

namespace Sys2Proof

open Machine

theorem mem_regsNamed_iff {a : Byte} {ra r : Reg} (ha : regOf a = some ra) : r ∈ regsNamed a ↔ r = ra := by
  simp [regsNamed, ha]

theorem mem_regsNamed {a : Byte} {ra : Reg} (ha : regOf a = some ra) : ra ∈ regsNamed a :=
  (mem_regsNamed_iff ha).mpr rfl

/-- LDI's register and a POP's register other than 6 are the only ones that are written and not read. -/
theorem Instr.eq_ldi_or_pop_of_written_of_unread {i : Instr} {r : Reg} {s : State} (hw : r ∈ i.writtenRegs)
    (hr : r ∉ i.readRegs s) :
    (∃ a imm, i = .ldi a imm ∧ r ∈ regsNamed a) ∨ (∃ a, i = .pop a ∧ r ∈ regsNamed a ∧ r ≠ Config.spIndex) := by
  cases i with
  | hlt | prn | cmp | jmp | jeq | jne | st => exact absurd hw List.not_mem_nil
  | add | mul => exact absurd (List.mem_append_left _ hw) hr
  | push | call => exact absurd (List.mem_singleton.mp hw ▸ .head _) hr
  | ret => exact absurd hw hr
  | ldi a imm => exact .inl ⟨a, imm, rfl, hw⟩
  | pop a => exact .inr ⟨a, rfl, (List.mem_append.mp hw).resolve_right hr, fun e => hr (e ▸ .head _)⟩

namespace Machine

/-! ## An update of a register that is not read -/

theorem State.reg_setReg_of_not_mem (s : State) {a : Byte} {ra r : Reg} (v : Byte) (ha : regOf a = some ra)
    (hr : r ∉ regsNamed a) : (s.setReg r v).reg ra = s.reg ra :=
  s.reg_setReg_of_ne v fun e => hr ((mem_regsNamed_iff ha).mpr e.symm)

theorem State.sp_setReg_of_ne (s : State) {r : Reg} (v : Byte) (h : r ≠ Config.spIndex) : (s.setReg r v).sp = s.sp :=
  s.reg_setReg_of_ne v h.symm

theorem State.setSp_setReg_comm (s : State) {r : Reg} (v w : Byte) (h : r ≠ Config.spIndex) :
    (s.setReg r v).setSp w = (s.setSp w).setReg r v :=
  s.setReg_comm v w h

theorem State.incSp_setReg_comm (s : State) {r : Reg} (v : Byte) (h : r ≠ Config.spIndex) :
    (s.setReg r v).incSp = s.incSp.setReg r v := by
  rw [State.incSp, s.sp_setReg_of_ne v h, s.setSp_setReg_comm v _ h, State.incSp]

theorem State.jumpIf_setReg_comm (s : State) {r ra : Reg} {v : Byte} {taken : Bool} (m : Mnemonic)
    (h : taken = true → (s.setReg r v).reg ra = s.reg ra) :
    (s.setReg r v).jumpIf taken m ra = (s.jumpIf taken m ra).setReg r v := by
  cases taken with
  | false => rfl
  | true => exact congrArg (s.setReg r v).jump (h rfl)

/-! ## The write column -/

theorem Executes.reg_of_not_mem_writtenRegs {s t : State} {i : Instr} {r : Reg} (h : Executes s i t)
    (hr : r ∉ i.writtenRegs) : t.reg r = s.reg r := by
  cases h with
  | ldi ha | add ha | mul ha => exact s.reg_setReg_of_ne _ fun e => hr (e ▸ mem_regsNamed ha)
  | push | call | ret => exact State.reg_setSp_of_ne _ _ fun e => hr (e ▸ .head _)
  | pop ha =>
    obtain ⟨hra, hsp⟩ := not_or.mp (mt List.mem_append.mpr hr)
    exact (State.reg_setSp_of_ne _ _ fun e => hsp (e ▸ .head _)).trans
      (s.reg_setReg_of_ne _ fun e => hra (e ▸ mem_regsNamed ha))
  | _ => rfl

/-! ## The read column -/

theorem Executes.of_eq {s t u : State} {i : Instr} (h : Executes s i t) (e : t = u) : Executes s i u := e ▸ h

/-- A register that is neither read nor written is carried through. -/
theorem Executes.setReg_of_not_mem {s t : State} {i : Instr} {r : Reg} (h : Executes s i t) (hr : r ∉ i.readRegs s)
    (hw : r ∉ i.writtenRegs) (v : Byte) : Executes (s.setReg r v) i (t.setReg r v) := by
  cases h with
  | hlt => exact .hlt
  | ldi ha =>
    have hne := fun e => hw ((mem_regsNamed_iff ha).mpr e)
    exact (Executes.ldi ha).of_eq (by rw [s.setReg_comm v _ hne]; rfl)
  | prn ha => exact (Executes.prn ha).of_eq (by rw [s.reg_setReg_of_not_mem v ha hr]; rfl)
  | add ha hb =>
    obtain ⟨hra, hrb⟩ := not_or.mp (mt List.mem_append.mpr hr)
    have hne := fun e => hw ((mem_regsNamed_iff ha).mpr e)
    exact (Executes.add ha hb).of_eq (by
      rw [s.reg_setReg_of_not_mem v ha hra, s.reg_setReg_of_not_mem v hb hrb, s.setReg_comm v _ hne]; rfl)
  | mul ha hb =>
    obtain ⟨hra, hrb⟩ := not_or.mp (mt List.mem_append.mpr hr)
    have hne := fun e => hw ((mem_regsNamed_iff ha).mpr e)
    exact (Executes.mul ha hb).of_eq (by
      rw [s.reg_setReg_of_not_mem v ha hra, s.reg_setReg_of_not_mem v hb hrb, s.setReg_comm v _ hne]; rfl)
  | cmp ha hb =>
    obtain ⟨hra, hrb⟩ := not_or.mp (mt List.mem_append.mpr hr)
    exact (Executes.cmp ha hb).of_eq (by
      rw [s.reg_setReg_of_not_mem v ha hra, s.reg_setReg_of_not_mem v hb hrb]; rfl)
  | push ha hs =>
    obtain ⟨hsp, hra⟩ := List.ne_and_not_mem_of_not_mem_cons hr
    have e := s.sp_setReg_of_ne v hsp
    exact (Executes.push ha (e ▸ hs)).of_eq (by
      rw [e, s.setSp_setReg_comm v _ hsp, State.reg_setReg_of_not_mem _ v ha hra]; rfl)
  | pop ha =>
    obtain ⟨hra, hsp⟩ := not_or.mp (mt List.mem_append.mpr hw)
    have hne := fun e => hra ((mem_regsNamed_iff ha).mpr e)
    have hsp := List.ne_of_not_mem_cons hsp
    exact (Executes.pop ha).of_eq (by
      rw [s.sp_setReg_of_ne v hsp, s.setReg_comm v _ hne, State.incSp_setReg_comm _ v hsp]; rfl)
  | call ha hs =>
    obtain ⟨hsp, hra⟩ := List.ne_and_not_mem_of_not_mem_cons hr
    have e := s.sp_setReg_of_ne v hsp
    exact (Executes.call ha (e ▸ hs)).of_eq (by
      rw [e, s.setSp_setReg_comm v _ hsp, State.reg_setReg_of_not_mem _ v ha hra]; rfl)
  | ret =>
    have hsp := List.ne_of_not_mem_cons hr
    exact Executes.ret.of_eq (by
      rw [s.sp_setReg_of_ne v hsp]; exact (s.jump (s.load s.sp)).incSp_setReg_comm v hsp)
  | jmp ha => exact (Executes.jmp ha).of_eq (by rw [s.reg_setReg_of_not_mem v ha hr]; rfl)
  | jeq ha =>
    exact (Executes.jeq ha).of_eq (s.jumpIf_setReg_comm .jeq fun hE : s.flagE = true =>
      s.reg_setReg_of_not_mem v ha (by simpa [Instr.readRegs, hE] using hr))
  | jne ha =>
    exact (Executes.jne ha).of_eq (s.jumpIf_setReg_comm .jne fun hE : (!s.flagE) = true =>
      s.reg_setReg_of_not_mem v ha (by simpa [Instr.readRegs, (Bool.not_eq_true' _).mp hE] using hr))
  | st ha hb =>
    obtain ⟨hra, hrb⟩ := not_or.mp (mt List.mem_append.mpr hr)
    exact (Executes.st ha hb).of_eq (by
      rw [s.reg_setReg_of_not_mem v ha hra, s.reg_setReg_of_not_mem v hb hrb]; rfl)
  | stackOverflow hi ha hs =>
    have hsp : r ≠ Config.spIndex := by obtain rfl | rfl := hi <;> exact List.ne_of_not_mem_cons hr
    exact .stackOverflow hi ha ((s.sp_setReg_of_ne v hsp).trans hs)
  | badIndex hb => exact .badIndex hb

/-- A register that is written and not read leaves no trace of its old value. -/
theorem Executes.setReg_of_mem_writtenRegs {s t : State} {i : Instr} {r : Reg} (h : Executes s i t) (hwf : i.wf = true)
    (hr : r ∉ i.readRegs s) (hw : r ∈ i.writtenRegs) (v : Byte) : Executes (s.setReg r v) i t := by
  obtain ⟨a, imm, rfl, ha⟩ | ⟨a, rfl, ha, hsp⟩ := Instr.eq_ldi_or_pop_of_written_of_unread hw hr
  · cases h with
    | ldi hra =>
      obtain rfl := (mem_regsNamed_iff hra).mp ha
      exact (Executes.ldi hra).of_eq (by rw [State.setReg_setReg])
    | stackOverflow hi => exact absurd hi (by simp)
    | badIndex hb => exact absurd hb (Instr.firstBadIndex_of_wf hwf)
  · cases h with
    | pop hra =>
      obtain rfl := (mem_regsNamed_iff hra).mp ha
      exact (Executes.pop hra).of_eq (by rw [s.sp_setReg_of_ne v hsp, State.load_setReg, State.setReg_setReg])
    | stackOverflow hi => exact absurd hi (by simp)
    | badIndex hb => exact absurd hb (Instr.firstBadIndex_of_wf hwf)

/-- Settles O33: an unread register is overwritten or carried through. -/
theorem registersReadAndWritten : Obligations.RegistersReadAndWritten := by
  intro i s t hwf he
  have h := exec_eq_next_iff.mp he
  refine ⟨fun r => h.reg_of_not_mem_writtenRegs, fun r v hr => ?_⟩
  split
  · next hw => exact (h.setReg_of_mem_writtenRegs hwf hr hw v).exec_eq
  · next hw => exact (h.setReg_of_not_mem hr hw v).exec_eq

end Machine

end Sys2Proof
end

section
/-! SUPPORT. Each register in the columns of 10_state.md R22 is read or written: one state, `probe`, shows it for every
instruction. -/

namespace Sys2Proof

open Machine

theorem regOf_of_mem_regsNamed {a : Byte} {r : Reg} (h : r ∈ regsNamed a) : regOf a = some r :=
  Option.mem_toList.mp h

theorem mem_regsNamed_append_iff {a b : Byte} {ra rb r : Reg} (ha : regOf a = some ra) (hb : regOf b = some rb) :
    r ∈ regsNamed a ++ regsNamed b ↔ r = ra ∨ r = rb := by
  rw [List.mem_append, mem_regsNamed_iff ha, mem_regsNamed_iff hb]

theorem exists_regOf_of_legalIndex_and {a b : Byte} (h : (legalIndex a && legalIndex b) = true) :
    ∃ ra rb, regOf a = some ra ∧ regOf b = some rb := by
  obtain ⟨ha, hb⟩ := Bool.and_eq_true_iff.mp h
  exact ⟨_, _, regOf_of_lt ((legalIndex_iff a).mp ha), regOf_of_lt ((legalIndex_iff b).mp hb)⟩

theorem regOf_injective {a b : Byte} {r : Reg} (ha : regOf a = some r) (hb : regOf b = some r) : a = b := by
  simp only [regOf, Option.dite_none_right_eq_some, Option.some.injEq] at ha hb
  obtain ⟨_, rfl⟩ := ha
  obtain ⟨_, e⟩ := hb
  exact BitVec.eq_of_toNat_eq (Fin.mk.inj e).symm

/-- The read of `r` shows: some state, and some other value in `r`, give next states that differ in more than what a register
that is not read accounts for (`RegistersReadAndWritten`). -/
def Instr.ReadShows (i : Instr) (r : Reg) : Prop :=
  ∃ (s t : State) (v : Byte), r ∈ i.readRegs s ∧ exec i s = .next t ∧
    exec i (s.setReg r v) ≠ .next (if r ∈ i.writtenRegs then t else t.setReg r v)

namespace Machine

/-- A read shows in any part `f` of the state that differs, if `f` does not see the register itself or the instruction
writes it. -/
theorem readShows_of_ne {α : Type} {i : Instr} {r : Reg} {s t t' : State} {v : Byte} (f : State → α)
    (hr : r ∈ i.readRegs s) (h : Executes s i t) (h' : Executes (s.setReg r v) i t')
    (hf : r ∈ i.writtenRegs ∨ f (t.setReg r v) = f t) (hne : f t' ≠ f t) : i.ReadShows r := by
  refine ⟨s, t, v, hr, h.exec_eq, fun e => hne ?_⟩
  rw [Host.Outcome.next.inj (h'.exec_eq.symm.trans e)]
  split
  · rfl
  · next hw => exact hf.resolve_left hw

/-! ## The state that shows the columns -/

/-- 2 in every register, and a stack whose cells at 2 and 3 differ. -/
def State.probe : State := { State.reset with regs := Vector.replicate 8 2, mem := [(3, 1)] }

@[simp] theorem State.reg_probe (r : Reg) : State.probe.reg r = 2 := by
  simp [State.probe, State.reg]

@[simp] theorem State.sp_probe : State.probe.sp = 2 := State.reg_probe _
@[simp] theorem State.flagE_probe : State.probe.flagE = false := rfl
@[simp] theorem State.flagE_setFl_flEqual (s : State) : (s.setFl flEqual).flagE = true := by
  simp [State.flagE, flEqual]

theorem State.reg_setReg_probe (r q : Reg) (v : Byte) : (State.probe.setReg r v).reg q = if q = r then v else 2 := by
  rw [State.reg_setReg, State.reg_probe]

/-- One value changed from 2 to 3 shows in one of two operands, or in both. -/
theorem State.reg_setReg_probe_pair {r ra rb : Reg} (h : r = ra ∨ r = rb) :
    ((probe.setReg r 3).reg ra = 3 ∧ (probe.setReg r 3).reg rb = 3) ∨
    ((probe.setReg r 3).reg ra = 3 ∧ (probe.setReg r 3).reg rb = 2) ∨
    ((probe.setReg r 3).reg ra = 2 ∧ (probe.setReg r 3).reg rb = 3) := by
  simp only [State.reg_setReg_probe]
  obtain rfl | rfl := h
  · by_cases e : rb = r <;> simp [e]
  · by_cases e : ra = r <;> simp [e]

/-! ## The write column -/

theorem exists_next_changing_writtenRegs {i : Instr} (hwf : i.wf = true) {r : Reg} (hr : r ∈ i.writtenRegs) :
    ∃ s t, Executes s i t ∧ t.reg r ≠ s.reg r := by
  cases i with
  | hlt | prn | cmp | jmp | jeq | jne | st => exact absurd hr List.not_mem_nil
  | ldi a imm =>
    exact ⟨State.probe.setReg r (imm + 1), _, .ldi (regOf_of_mem_regsNamed hr), by simp⟩
  | add a b =>
    obtain ⟨_, rb, _, hb⟩ := exists_regOf_of_legalIndex_and hwf
    exact ⟨.probe, _, .add (regOf_of_mem_regsNamed hr) hb, by simp⟩
  | mul a b =>
    obtain ⟨_, rb, _, hb⟩ := exists_regOf_of_legalIndex_and hwf
    exact ⟨.probe, _, .mul (regOf_of_mem_regsNamed hr) hb, by simp⟩
  | push a =>
    obtain ⟨ra, ha⟩ := exists_regOf_of_legalIndex hwf
    obtain rfl := List.mem_singleton.mp hr
    exact ⟨.probe, _, .push ha (by simp), by simp [State.setSp]⟩
  | call a =>
    obtain ⟨ra, ha⟩ := exists_regOf_of_legalIndex hwf
    obtain rfl := List.mem_singleton.mp hr
    exact ⟨.probe, _, .call ha (by simp), by simp [State.setSp]⟩
  | ret =>
    obtain rfl := List.mem_singleton.mp hr
    exact ⟨.probe, _, .ret, by simp [State.incSp, State.setSp]⟩
  | pop a =>
    obtain ⟨ra, ha⟩ := exists_regOf_of_legalIndex hwf
    refine ⟨.probe, _, .pop ha, ?_⟩
    by_cases hsp : r = Config.spIndex
    · subst hsp
      simp only [State.reg_spIndex, State.sp_advance, State.sp_incSp, State.sp_setReg]
      split <;> decide
    · obtain rfl := (mem_regsNamed_iff ha).mp ((List.mem_append.mp hr).resolve_right (hsp ∘ List.mem_singleton.mp))
      simp only [State.reg_advance, State.incSp, State.reg_setSp, hsp, if_false, State.reg_setReg_self, State.reg_probe]
      decide

/-! ## The read column -/

/-- `readShows_of_ne` at the state `probe` and the value 3. -/
theorem readShows_probe {α : Type} {i : Instr} {r : Reg} {t t' : State} (f : State → α) (hr : r ∈ i.readRegs .probe)
    (h : Executes .probe i t) (h' : Executes (State.probe.setReg r 3) i t')
    (hf : r ∈ i.writtenRegs ∨ f (t.setReg r 3) = f t) (hne : f t' ≠ f t) : i.ReadShows r :=
  readShows_of_ne f hr h h' hf hne

section TwoOperands

variable {a b : Byte} {ra rb r : Reg} (ha : regOf a = some ra) (hb : regOf b = some rb)
  (hr : r ∈ regsNamed a ++ regsNamed b)
include ha hb hr

theorem readShows_add : (Instr.add a b).ReadShows r := by
  refine readShows_probe (State.reg · ra) hr (.add ha hb) (.add ha hb)
    (or_iff_not_imp_left.mpr (State.reg_setReg_of_not_mem _ 3 ha)) ?_
  simp only [State.reg_advance, State.reg_setReg_self, State.reg_probe]
  have hrab := State.reg_setReg_probe_pair ((mem_regsNamed_append_iff ha hb).mp hr)
  obtain ⟨ea, eb⟩ | ⟨ea, eb⟩ | ⟨ea, eb⟩ := hrab <;> rw [ea, eb] <;> decide

theorem readShows_mul : (Instr.mul a b).ReadShows r := by
  refine readShows_probe (State.reg · ra) hr (.mul ha hb) (.mul ha hb)
    (or_iff_not_imp_left.mpr (State.reg_setReg_of_not_mem _ 3 ha)) ?_
  simp only [State.reg_advance, State.reg_setReg_self, State.reg_probe]
  have hrab := State.reg_setReg_probe_pair ((mem_regsNamed_append_iff ha hb).mp hr)
  obtain ⟨ea, eb⟩ | ⟨ea, eb⟩ | ⟨ea, eb⟩ := hrab <;> rw [ea, eb] <;> decide

theorem readShows_st : (Instr.st a b).ReadShows r := by
  refine readShows_probe (State.load · 2) hr (.st ha hb) (.st ha hb) (.inr rfl) ?_
  simp only [State.load_advance, State.load_store, State.load_setReg, State.reg_probe]
  have hrab := State.reg_setReg_probe_pair ((mem_regsNamed_append_iff ha hb).mp hr)
  obtain ⟨ea, eb⟩ | ⟨ea, eb⟩ | ⟨ea, eb⟩ := hrab <;> rw [ea, eb] <;> decide

theorem readShows_cmp (hab : a ≠ b) : (Instr.cmp a b).ReadShows r := by
  have hne : ra ≠ rb := fun e => hab (regOf_injective ha (e ▸ hb))
  refine readShows_probe State.fl hr (.cmp ha hb) (.cmp ha hb) (.inr rfl) ?_
  simp only [State.advance_fl, State.setFl_fl, State.reg_setReg_probe, State.reg_probe]
  obtain rfl | rfl := (mem_regsNamed_append_iff ha hb).mp hr
  · rw [if_pos rfl, if_neg hne.symm]; decide
  · rw [if_pos rfl, if_neg hne]; decide

end TwoOperands

section Stack

variable {a : Byte} {ra r : Reg} (ha : regOf a = some ra)
include ha

theorem readShows_push (hr : r ∈ Config.spIndex :: regsNamed a) : (Instr.push a).ReadShows r := by
  by_cases hsp : r = Config.spIndex
  · subst hsp
    exact readShows_probe State.sp hr (.push ha (by simp)) (.push ha (by simp)) (.inl (.head _)) (by simp)
  · obtain rfl := (mem_regsNamed_iff ha).mp (List.mem_of_ne_of_mem hsp hr)
    have hS := State.sp_setReg_of_ne .probe 3 hsp
    refine readShows_probe (State.load · 1) hr (.push ha (by simp)) (.push ha (by rw [hS]; simp)) (.inr rfl) ?_
    simp [State.sp_setReg, Ne.symm hsp, State.load_store, State.reg_setSp, hsp]

theorem readShows_call (hr : r ∈ Config.spIndex :: regsNamed a) : (Instr.call a).ReadShows r := by
  by_cases hsp : r = Config.spIndex
  · subst hsp
    exact readShows_probe State.sp hr (.call ha (by simp)) (.call ha (by simp)) (.inl (.head _)) (by simp)
  · obtain rfl := (mem_regsNamed_iff ha).mp (List.mem_of_ne_of_mem hsp hr)
    have hS := State.sp_setReg_of_ne .probe 3 hsp
    refine readShows_probe State.pc hr (.call ha (by simp)) (.call ha (by rw [hS]; simp)) (.inr rfl) ?_
    simp [State.reg_setSp, hsp]

theorem readShows_pop : (Instr.pop a).ReadShows Config.spIndex := by
  refine readShows_probe State.sp (.head _) (.pop ha) (.pop ha) (.inl (List.mem_append_right _ (.head _))) ?_
  simp only [State.sp_advance, State.sp_incSp, State.sp_setReg, State.load_setReg, State.sp_probe]
  split <;> decide

end Stack

theorem readShows_ret : Instr.ret.ReadShows Config.spIndex :=
  readShows_probe State.sp (.head _) .ret .ret (.inl (.head _)) (by simp)

section OneOperand

variable {a : Byte} {r : Reg} (hr : r ∈ regsNamed a)
include hr

theorem readShows_prn : (Instr.prn a).ReadShows r := by
  have ha := regOf_of_mem_regsNamed hr
  exact readShows_probe State.out hr (.prn ha) (.prn ha) (.inr rfl) (by simp)

theorem readShows_jmp : (Instr.jmp a).ReadShows r := by
  have ha := regOf_of_mem_regsNamed hr
  exact readShows_probe State.pc hr (.jmp ha) (.jmp ha) (.inr rfl) (by simp)

theorem readShows_jne : (Instr.jne a).ReadShows r := by
  have ha := regOf_of_mem_regsNamed hr
  exact readShows_probe State.pc hr (.jne ha) (.jne ha) (.inr rfl) (by simp [State.jumpIf])

/-- `FL.E` is 0 in `probe`, so a JEQ that reads its register needs EQUAL in `FL`. -/
theorem readShows_jeq : (Instr.jeq a).ReadShows r := by
  have ha := regOf_of_mem_regsNamed hr
  exact readShows_of_ne (s := State.probe.setFl flEqual) (v := 3) State.pc hr (.jeq ha) (.jeq ha) (.inr rfl)
    (by simp [State.jumpIf])

end OneOperand

theorem readShows_of_mem_readRegs {i : Instr} (hwf : i.wf = true) (hcmp : ∀ a, i ≠ .cmp a a) {r : Reg} {s : State}
    (hr : r ∈ i.readRegs s) : i.ReadShows r := by
  cases i with
  | hlt | ldi => exact absurd hr List.not_mem_nil
  | prn => exact readShows_prn hr
  | jmp => exact readShows_jmp hr
  | jeq => exact readShows_jeq (List.mem_ite_nil_right.mp hr).2
  | jne => exact readShows_jne (List.mem_ite_nil_left.mp hr).2
  | ret => exact List.mem_singleton.mp hr ▸ readShows_ret
  | pop =>
    obtain ⟨_, ha⟩ := exists_regOf_of_legalIndex hwf
    exact List.mem_singleton.mp hr ▸ readShows_pop ha
  | push =>
    obtain ⟨_, ha⟩ := exists_regOf_of_legalIndex hwf
    exact readShows_push ha hr
  | call =>
    obtain ⟨_, ha⟩ := exists_regOf_of_legalIndex hwf
    exact readShows_call ha hr
  | add =>
    obtain ⟨_, _, ha, hb⟩ := exists_regOf_of_legalIndex_and hwf
    exact readShows_add ha hb hr
  | mul =>
    obtain ⟨_, _, ha, hb⟩ := exists_regOf_of_legalIndex_and hwf
    exact readShows_mul ha hb hr
  | st =>
    obtain ⟨_, _, ha, hb⟩ := exists_regOf_of_legalIndex_and hwf
    exact readShows_st ha hb hr
  | cmp a b =>
    obtain ⟨_, _, ha, hb⟩ := exists_regOf_of_legalIndex_and hwf
    exact readShows_cmp ha hb hr fun e => hcmp a (by rw [e])

/-! ## The obligation -/

/-- Settles O50: `probe` shows every read and every write but LDI's, which shows on its literal plus one. -/
theorem registersOfTheTableMatter : Obligations.RegistersOfTheTableMatter := by
  refine fun i hwf => ⟨fun r hr => ?_, fun hcmp r s₀ hr => readShows_of_mem_readRegs hwf hcmp hr⟩
  obtain ⟨s, t, h, hne⟩ := exists_next_changing_writtenRegs hwf hr
  exact ⟨s, t, h.exec_eq, hne⟩

end Machine

end Sys2Proof
end

section
/-! SUPPORT. What a memory holds: the last write to each cell, and the one canonical list of its contents (20_memory.md R50,
R51). -/

namespace Sys2Proof.Machine

/-! ## Sequences of writes -/

/-- Settles O14: by the last write of the sequence, which is the first of its reversal. -/
theorem readReturnsTheLastWrite : Obligations.ReadReturnsTheLastWrite := by
  intro m writes a
  induction writes using List.reverseRecOn with
  | nil => rfl
  | append_singleton ws w ih =>
    obtain ⟨b, v⟩ := w
    rw [List.foldl_concat, List.reverse_concat, Memory.read_write, ih, List.lookup_cons]
    by_cases h : a = b
    · simp [h]
    · rw [if_neg h, beq_false_of_ne h]

/-! ## The canonical form -/

/-- The listed cells are the ones a lookup finds: no address is listed twice. -/
theorem Memory.lookup_eq_some_iff_mem {m : Memory} (h : m.Pairwise (fun c d => c.1 < d.1)) (k : Nat) (v : Byte) :
    m.lookup k = some v ↔ (k, v) ∈ m := by
  induction m with
  | nil => simp
  | cons c m ih =>
    obtain ⟨hc, hm⟩ := List.pairwise_cons.mp h
    rw [Memory.lookup_cons, List.mem_cons, Prod.ext_iff]
    split
    · next hk =>
      have hnot : (k, v) ∉ m := fun hmem => absurd hk (hc _ hmem).ne'
      rw [or_iff_left hnot]
      simp [hk, eq_comm]
    · next hk => simp [hk, ih hm]

/-- A canonical memory lists exactly the cells that do not read as an unlisted one. -/
theorem Memory.read_eq_iff_mem {m : Memory} (h : m.wf) (a : Byte) {v : Byte} (hv : v ≠ Memory.unlisted) :
    m.read a = v ↔ (a.toNat, v) ∈ m := by
  rw [← Memory.lookup_eq_some_iff_mem h.1, Memory.read]
  cases m.lookup a.toNat with
  | none => simp [hv.symm]
  | some w => simp

theorem Memory.subset_of_read_eq {m n : Memory} (hm : m.wf) (hn : n.wf) (h : ∀ a, m.read a = n.read a) : m ⊆ n := by
  rintro ⟨k, v⟩ hc
  obtain ⟨hk, hv⟩ := hm.2 _ hc
  have hka : (BitVec.ofNat 8 k).toNat = k := (BitVec.toNat_ofNat k 8).trans (Nat.mod_eq_of_lt hk)
  rw [← hka] at hc ⊢
  exact (Memory.read_eq_iff_mem hn _ hv).mp ((h _).symm.trans ((Memory.read_eq_iff_mem hm _ hv).mpr hc))

/-- Settles O15: both list the same cells, in rising order. -/
theorem canonicalMemoryIsUnique : Obligations.CanonicalMemoryIsUnique := by
  intro m n hm hn h
  have hirrefl : Std.Irrefl fun c d : Host.Cell => c.1 < d.1 := ⟨fun _ => lt_irrefl _⟩
  have hantisymm : Std.Antisymm fun c d : Host.Cell => c.1 < d.1 := ⟨fun _ _ h h' => absurd h' h.asymm⟩
  exact List.Subset.antisymm_of_pairwise hm.1 hn.1 (Memory.subset_of_read_eq hm hn h)
    (Memory.subset_of_read_eq hn hm fun a => (h a).symm)

end Sys2Proof.Machine
end

section
/-! SUPPORT. A RUNNING engine always has a step, and what the step is on a byte that is no opcode (20_memory.md R65, R67;
40_cycle.md R110). -/

namespace Sys2Proof.Machine

theorem runDecoded_exists_next (s : State) : ∀ d, ∃ t, runDecoded s d = .next t
  | .ok i => (Executes.exists_next s i).imp fun _ h => h.exec_eq
  | .error (.unknownOpcode _) => ⟨_, rfl⟩

/-- Settles O10: whatever the decoder answers, there is a next state. -/
theorem runningEngineAlwaysSteps : Obligations.RunningEngineAlwaysSteps := by
  refine fun map s => ⟨fun hrun => ?_, fun ⟨_, h⟩ => (cycle_next_cases h).1⟩
  rw [cycle_of_running map hrun]
  exact runDecoded_exists_next s _

theorem cycle_of_unknown {map : OpcodeMap} {s : State} (hrun : s.run = .running)
    (h : map.lookup (s.load s.pc) = none) : cycle map s = .next (s.takeFault .unknownOpcode (s.load s.pc)) :=
  (cycle_of_running map hrun).trans (congrArg (runDecoded s) (decode_of_unknown h _ _))

theorem step_of_zero_cell {s : State} (hrun : s.run = .running) (hcell : s.load s.pc = 0) :
    step s = .next (s.takeFault .unknownOpcode 0) := by
  have hlookup : defaultOpcodeMap.lookup (s.load s.pc) = none := by rw [hcell]; decide
  exact (cycle_of_unknown hrun hlookup).trans (by rw [hcell])

/-- Settles O8: 0 is no byte of the default map, and every cell of the empty image is 0. -/
theorem zeroCellStopsTheRun : Obligations.ZeroCellStopsTheRun :=
  ⟨fun _ => step_of_zero_cell, State.reset, rfl, step_of_zero_cell rfl rfl⟩

end Sys2Proof.Machine
end

section
/-! SUPPORT. Which cell an instruction stores to, what the others keep, and what the next fetch sees of the store
(20_memory.md R58, R61, R63). -/

namespace Sys2Proof

open Machine

/-- The address an instruction stores to, if it stores (42_data_movement.md R141, 44_stack.md R170, 45_control_transfer.md
R180). -/
def Instr.storeAddress (s : Machine.State) : Instr → Option Byte
  | .st a _ => (regOf a).map s.reg
  | .push _ | .call _ => some (s.sp - 1)
  | _ => none

theorem Instr.storeAddress_eq_none {s : Machine.State} {i : Instr} (hst : ∀ a b, i ≠ .st a b)
    (hstack : ∀ a, i ≠ .push a ∧ i ≠ .call a) : i.storeAddress s = none := by
  cases i with
  | st a b => exact absurd rfl (hst a b)
  | push a => exact absurd rfl (hstack a).1
  | call a => exact absurd rfl (hstack a).2
  | _ => rfl

theorem legalIndex_of_regOf {a : Byte} {r : Reg} (h : regOf a = some r) : legalIndex a = true := by
  refine (legalIndex_iff a).mpr (not_le.mp fun hgt => ?_)
  simp [regOf_of_gt hgt] at h

namespace Machine

/-! ## What an instruction keeps of the memory -/

/-- Memory changes by one write at most: that to the store address, and only when no check faults. -/
theorem Executes.mem_cases {s t : State} {i : Instr} (h : Executes s i t) :
    t.mem = s.mem ∨ (i.wf = true ∧ i.hasStackRoom s ∧ ∃ x v, i.storeAddress s = some x ∧ t.mem = s.mem.write x v) := by
  cases h with
  | st ha hb =>
    have hwf := Bool.and_eq_true_iff.mpr ⟨legalIndex_of_regOf ha, legalIndex_of_regOf hb⟩
    exact .inr ⟨hwf, fun h => absurd h (by simp [Instr.mnemonic]), _, _, congrArg (Option.map s.reg) ha, rfl⟩
  | push ha hs | call ha hs => exact .inr ⟨legalIndex_of_regOf ha, fun _ => hs, _, _, rfl, rfl⟩
  | _ => exact .inl rfl

theorem Executes.load_eq_of_ne_storeAddress {s t : State} {i : Instr} (h : Executes s i t) {x : Byte}
    (hx : i.storeAddress s ≠ some x) : t.load x = s.load x := by
  obtain e | ⟨_, _, y, v, hy, e⟩ := h.mem_cases
  · rw [State.load, State.load, e]
  · have hxy : x ≠ y := by rintro rfl; exact hx hy
    rw [State.load, State.load, e, Memory.read_write_of_ne _ _ hxy]

theorem Executes.mem_eq_of_fault {s t : State} {i : Instr} (h : Executes s i t)
    (hi : i.wf = false ∨ ¬ i.hasStackRoom s) : t.mem = s.mem := by
  refine h.mem_cases.resolve_right fun ⟨hwf, hroom, _⟩ => ?_
  obtain hi | hi := hi
  · simp [hwf] at hi
  · exact hi hroom

/-- Settles O37: each clause says which address is the store address. -/
theorem memoryFrame : Obligations.MemoryFrame := by
  refine ⟨fun s t a b ha he x hx => ?_, fun s t a i hi he x hx => ?_, fun s t i hst hstack he x => ?_,
    fun s t i hi he x => ?_⟩
  all_goals have h := exec_eq_next_iff.mp he
  · refine h.load_eq_of_ne_storeAddress fun e => hx ?_
    simpa [Instr.storeAddress, regOf_of_lt ha, State.reg, eq_comm] using e
  · refine h.load_eq_of_ne_storeAddress fun e => hx ?_
    obtain rfl | rfl := hi <;> exact (Option.some.inj e).symm
  · exact h.load_eq_of_ne_storeAddress (by simp [Instr.storeAddress_eq_none hst hstack])
  · exact congrArg (Memory.read · x) (h.mem_eq_of_fault hi)

/-! ## What the next fetch sees -/

theorem Executes.unique {s t u : State} {i : Instr} (ht : Executes s i t) (hu : Executes s i u) : t = u :=
  Host.Outcome.next.inj (ht.exec_eq.symm.trans hu.exec_eq)

/-- The value PUSH stores, register 6 being read after the decrement of SP (44_stack.md R173). -/
theorem State.reg_setSp_of_lt (s : State) (v : Byte) {a : Byte} (ha : a.toNat < 8) :
    (s.setSp v).reg ⟨a.toNat, ha⟩ = if a = 6 then v else s.regs[a.toNat] := by
  have h6 : (⟨a.toNat, ha⟩ : Reg) = Config.spIndex ↔ a = 6 := Fin.ext_iff.trans (BitVec.toNat_inj (y := 6))
  rw [State.reg_setSp]
  simp only [h6, State.reg]

/-- Settles O43: each of the three ends in one write, and the next fetch reads the memory it leaves. -/
theorem storeIsSeenByTheNextFetch : Obligations.StoreIsSeenByTheNextFetch := by
  refine fun s t => ⟨fun a b ha hb he => ?_, fun a ha hs he => ?_, fun a ha hs he => ?_⟩
  all_goals have h := exec_eq_next_iff.mp he
  · obtain rfl := h.unique (.st (regOf_of_lt ha) (regOf_of_lt hb))
    exact State.fetchSees_of_write rfl
  · obtain rfl := h.unique (.push (regOf_of_lt ha) hs)
    rw [← s.reg_setSp_of_lt _ ha]
    exact State.fetchSees_of_write rfl
  · obtain rfl := h.unique (.call (regOf_of_lt ha) hs)
    exact State.fetchSees_of_write rfl

end Machine

end Sys2Proof
end

section
/-! SUPPORT. Which bytes an opcode map knows (30_encoding.md R82, R88 to R90). -/

namespace Sys2Proof

/-! ## Words of the encoding tables -/

/-- Settles O1: each word is a literal, so the decoder runs on it. -/
theorem specWordsDecode : Obligations.SpecWordsDecode := by
  unfold Obligations.SpecWordsDecode
  decide

/-! ## The bytes of a map -/

theorem exists_decode_eq_ok_iff (map : OpcodeMap) (op opA opB : Byte) :
    (∃ i, decode map op opA opB = .ok i) ↔ op ∈ Mnemonic.all.map map.byteOf := by
  cases h : map.lookup op with
  | none => simp [decode_of_unknown h, map.lookup_eq_none op |>.mp h]
  | some m =>
    exact iff_of_true ⟨_, decode_of_lookup h opA opB⟩ (List.mem_map.mpr ⟨m, m.mem_all, (map.lookup_eq_some op m).mp h⟩)

/-- The byte values with an entry, counted upward, are the mnemonics' bytes, each once: the map is injective
(00_scope.md R7). -/
theorem OpcodeMap.known_perm (map : OpcodeMap) :
    ((List.range 256).filter fun n => (map.lookup (BitVec.ofNat 8 n)).isSome).Perm
      (Mnemonic.all.map fun m => (map.byteOf m).toNat) := by
  refine (List.perm_ext_iff_of_nodup (List.nodup_range.filter _) (List.Nodup.map ?_ (by decide))).mpr fun n => ?_
  · exact fun m k h => map.injective m k (BitVec.eq_of_toNat_eq h)
  · simp only [List.mem_filter, List.mem_range, Option.isSome_iff_exists, map.lookup_eq_some, List.mem_map]
    constructor
    · rintro ⟨hn, m, hm⟩
      exact ⟨m, m.mem_all, by rw [hm, BitVec.toNat_ofNat, Nat.mod_eq_of_lt hn]⟩
    · rintro ⟨m, -, rfl⟩
      exact ⟨(map.byteOf m).isLt, m, by simp⟩

/-- Every map leaves 242 byte values without an entry (30_encoding.md R89). -/
theorem OpcodeMap.length_unknown (map : OpcodeMap) :
    ((List.range 256).filter fun n => (map.lookup (BitVec.ofNat 8 n)).isNone).length = 242 := by
  have hknown := map.known_perm.length_eq
  have hsplit := List.length_eq_length_filter_add (l := List.range 256)
    fun n => (map.lookup (BitVec.ofNat 8 n)).isSome
  simp only [Option.not_isSome, List.length_range, hknown, List.length_map] at hsplit
  have hall : Mnemonic.all.length = 14 := rfl
  omega

/-- Settles O2: the fourteen bytes are the default map's, in the order of the mnemonics. -/
theorem defaultOpcodesAreTheFourteen : Obligations.DefaultOpcodesAreTheFourteen :=
  ⟨exists_decode_eq_ok_iff defaultOpcodeMap, defaultOpcodeMap.length_unknown⟩

end Sys2Proof
end

section
/-! SUPPORT. What the loader makes of a line and of a text of binary literals (30_encoding.md R94 to R96). -/

namespace Sys2Proof.Machine

/-! ## One line -/

/-- A literal: exactly eight characters from `0` and `1` (30_encoding.md R95). -/
def IsLiteral (l : List Char) : Prop := l.length = 8 ∧ ∀ c ∈ l, c = '0' ∨ c = '1'

theorem parseLine_of_literal {l : List Char} (h : IsLiteral (stripLine l)) :
    parseLine l = .ok [BitVec.ofNat 8 (binaryValue (stripLine l))] := by
  have hne : stripLine l ≠ [] := List.ne_nil_of_length_eq_add_one h.1
  rw [parseLine, if_neg hne, if_pos ⟨h.1, by simpa using h.2⟩]

theorem parseLine_of_malformed {l : List Char} (hne : stripLine l ≠ []) (h : ¬ IsLiteral (stripLine l)) :
    parseLine l = .error (.malformedLine l) := by
  rw [parseLine, if_neg hne, if_neg fun ⟨hlen, hdigits⟩ => h ⟨hlen, by simpa using hdigits⟩]

/-- Nothing is stripped from a line without comments and white space. -/
theorem stripLine_eq_self {l : List Char} (h : ∀ c ∈ l, c ≠ '#' ∧ isBlank c = false) : stripLine l = l := by
  have hcomment : l.takeWhile (· ≠ '#') = l := List.takeWhile_eq_self_iff.mpr fun c hc => by simp [(h c hc).1]
  have hblank {k : List Char} (hk : ∀ c ∈ k, c ∈ l) : k.dropWhile isBlank = k := by
    cases k with
    | nil => rfl
    | cons c cs => exact List.dropWhile_cons_of_neg (by simp [h c (hk c (by simp))])
  rw [stripLine, hcomment, hblank fun _ => id, hblank fun _ => List.mem_reverse.mp, List.reverse_reverse]

theorem IsLiteral.stripLine_eq {l : List Char} (h : IsLiteral l) : stripLine l = l := by
  refine stripLine_eq_self fun c hc => ?_
  obtain rfl | rfl := h.2 c hc <;> decide

/-! ## All lines -/

theorem parseLines_cons_eq_ok {l : List Char} {ls : List (List Char)} {bytes : List Byte} :
    parseLines (l :: ls) = .ok bytes ↔
      ∃ bs rest, parseLine l = .ok bs ∧ parseLines ls = .ok rest ∧ bs ++ rest = bytes := by
  rw [parseLines]
  cases parseLine l with
  | error e => simp
  | ok bs => cases parseLines ls <;> simp

theorem exists_parseLine_eq_ok {ls : List (List Char)} {bytes : List Byte} (h : parseLines ls = .ok bytes) :
    ∀ l ∈ ls, ∃ bs, parseLine l = .ok bs := by
  induction ls generalizing bytes with
  | nil => simp
  | cons l ls ih =>
    obtain ⟨bs, rest, hl, hls, -⟩ := parseLines_cons_eq_ok.mp h
    exact List.forall_mem_cons.mpr ⟨⟨bs, hl⟩, ih hls⟩

/-- Settles O17: a load that answers an image has read every line. -/
theorem malformedLineRefusesTheLoad : Obligations.MalformedLineRefusesTheLoad := by
  intro lines l hl hne hbad
  cases h : parseLines lines with
  | error e => exact ⟨e, rfl⟩
  | ok bytes =>
    obtain ⟨bs, hbs⟩ := exists_parseLine_eq_ok h l hl
    rw [parseLine_of_malformed hne hbad] at hbs
    cases hbs

/-! ## The lines of a text -/

theorem splitLines_ne_nil (cs : List Char) : splitLines cs ≠ [] := by
  cases cs with
  | nil => simp [splitLines]
  | cons c cs =>
    rw [splitLines]
    split
    · simp
    · split <;> simp

theorem splitLines_cons {c : Char} {cs l : List Char} {ls : List (List Char)} (h : splitLines cs = l :: ls) :
    splitLines (c :: cs) = if c = '\n' then [] :: l :: ls else (c :: l) :: ls := by
  rw [splitLines, h]

theorem splitLines_line_append {l : List Char} (hl : '\n' ∉ l) (cs : List Char) :
    splitLines (l ++ '\n' :: cs) = l :: splitLines cs := by
  induction l with
  | nil =>
    obtain ⟨k, ks, hcs⟩ := List.exists_cons_of_ne_nil (splitLines_ne_nil cs)
    rw [List.nil_append, splitLines_cons hcs, if_pos rfl, hcs]
  | cons c l ih =>
    obtain ⟨hc, hl⟩ := List.ne_and_not_mem_of_not_mem_cons hl
    rw [List.cons_append, splitLines_cons (ih hl), if_neg (Ne.symm hc)]

/-! ## The digits of a byte -/

/-- The binary digits of the low `w` bits of a byte, bit `w - 1` first (30_encoding.md R94; log 19). -/
def bitDigits (b : Byte) (w : Nat) : List Char :=
  (List.range w).reverse.map fun k => if b.getLsbD k then '1' else '0'

theorem binaryLine_eq (b : Byte) : binaryLine b = bitDigits b 8 ++ ['\n'] := rfl

theorem bitDigits_succ (b : Byte) (w : Nat) :
    bitDigits b (w + 1) = (if b.getLsbD w then '1' else '0') :: bitDigits b w := by
  simp [bitDigits, List.range_succ]

theorem isLiteral_bitDigits (b : Byte) : IsLiteral (bitDigits b 8) := by
  refine ⟨by simp [bitDigits], fun c hc => ?_⟩
  obtain ⟨k, -, rfl⟩ := List.mem_map.mp hc
  cases b.getLsbD k <;> simp

theorem binaryValue_concat (l : List Char) (bit : Bool) :
    binaryValue (l ++ [if bit then '1' else '0']) = 2 * binaryValue l + bit.toNat := by
  cases bit <;> simp [binaryValue]

/-- The low `w` bits read on after the digits `l`. -/
theorem binaryValue_append_bitDigits (l : List Char) (b : Byte) (w : Nat) :
    binaryValue (l ++ bitDigits b w) = 2 ^ w * binaryValue l + b.toNat % 2 ^ w := by
  induction w generalizing l with
  | zero => simp [bitDigits, Nat.mod_one]
  | succ w ih =>
    rw [bitDigits_succ, List.append_cons, ih, binaryValue_concat, Nat.mod_pow_succ, ← Nat.toNat_testBit,
      BitVec.testBit_toNat]
    ring

theorem binaryValue_bitDigits (b : Byte) : binaryValue (bitDigits b 8) = b.toNat :=
  (binaryValue_append_bitDigits [] b 8).trans ((Nat.zero_add _).trans (Nat.mod_eq_of_lt b.isLt))

theorem parseLine_bitDigits (b : Byte) : parseLine (bitDigits b 8) = .ok [b] := by
  have hstrip := (isLiteral_bitDigits b).stripLine_eq
  rw [parseLine_of_literal (hstrip.symm ▸ isLiteral_bitDigits b), hstrip, binaryValue_bitDigits, BitVec.ofNat_toNat,
    BitVec.setWidth_eq]

theorem newline_not_mem_bitDigits (b : Byte) : '\n' ∉ bitDigits b 8 := fun h => by
  simpa using (isLiteral_bitDigits b).2 _ h

/-- Settles O16: by induction on the image, each line giving its byte back. -/
theorem loaderReadsBinaryText : Obligations.LoaderReadsBinaryText := by
  intro image
  induction image with
  | nil => rfl
  | cons b image ih =>
    have hsplit : splitLines ((b :: image).flatMap binaryLine) = bitDigits b 8 :: splitLines (image.flatMap binaryLine) := by
      rw [List.flatMap_cons, binaryLine_eq, List.append_assoc]
      exact splitLines_line_append (newline_not_mem_bitDigits b) _
    rw [loadProgram, hsplit]
    exact parseLines_cons_eq_ok.mpr ⟨[b], image, parseLine_bitDigits b, ih, rfl⟩

end Sys2Proof.Machine
end

section
/-! SUPPORT. The cycle as fetch, decode and execution, and the fault entries it can take instead (40_cycle.md R110 to R116;
60_exceptions.md R200 to R208). -/

namespace Sys2Proof

theorem length_encode_le_three (map : OpcodeMap) (i : Instr) : (encode map i).length ≤ 3 := by
  obtain ⟨opA, opB, hi⟩ := i.eq_withOperands
  rw [hi, encode_withOperands]
  exact Nat.succ_le_succ (List.length_take_le' _ _)

/-- The hardware's decoder reads an instruction off three bytes that begin with its encoding, whatever follows it
(30_encoding.md R84). -/
theorem decode_of_encode_prefix {map : OpcodeMap} {op opA opB : Byte} {i : Instr} (h : encode map i <+: [op, opA, opB]) :
    decode map op opA opB = .ok i := by
  obtain ⟨rest, h⟩ := h
  obtain ⟨m, hm, _, hi, _⟩ := (decodeBytes_cons_eq_ok ..).mp (h ▸ decodeBytes_encode_append map i rest)
  exact (decode_of_lookup ((map.lookup_eq_some op m).mpr hm) opA opB).trans (congrArg Except.ok hi)

theorem Instr.firstBadIndex_of_head {i : Instr} {a : Byte} (hi : i.indexOperands.head? = some a) (ha : 7 < a.toNat) :
    i.firstBadIndex = some a := by
  obtain ⟨l, hl⟩ := List.head?_eq_some_iff.mp hi
  simp [Instr.firstBadIndex, hl, (Machine.legalIndex_eq_false_iff a).mpr ha]

theorem Instr.firstBadIndex_of_second {i : Instr} {a b : Byte} (hi : i.indexOperands = [a, b]) (ha : a.toNat < 8)
    (hb : 7 < b.toNat) : i.firstBadIndex = some b := by
  simp [Instr.firstBadIndex, hi, (Machine.legalIndex_iff a).mpr ha, (Machine.legalIndex_eq_false_iff b).mpr hb]

namespace Machine

/-! ## Fetch, decode, execute -/

theorem cycle_of_decode {map : OpcodeMap} {s : State} {i : Instr} (hrun : s.run = .running)
    (h : decode map s.fetch.op s.fetch.opA s.fetch.opB = .ok i) : cycle map s = exec i s :=
  (cycle_of_running map hrun).trans (congrArg (runDecoded s) h)

/-- The three bytes of a fetch stand at `pc` and after it, modulo 256 (40_cycle.md R111; 20_memory.md R55). -/
theorem State.load_pc_add (s : State) : ∀ k (hk : k < 3),
    s.load (s.pc + BitVec.ofNat 8 k) = [s.fetch.op, s.fetch.opA, s.fetch.opB][k]
  | 0, _ => congrArg s.load (BitVec.add_zero s.pc)
  | 1, _ | 2, _ => rfl

/-- Settles O9: the run state alone decides. -/
theorem stoppedEngineHasNoStep : Obligations.StoppedEngineHasNoStep :=
  fun map _ => ⟨cycle_of_halted map, cycle_of_faulted map⟩

/-- Settles O5: the three loaded bytes are those of the fetch. -/
theorem stepRunsTheDecodedInstruction : Obligations.StepRunsTheDecodedInstruction :=
  fun _ _ => cycle_of_decode

/-- Settles O6: the three fetched bytes begin with the encoding. -/
theorem encodedInstructionAtPcRuns : Obligations.EncodedInstructionAtPcRuns := by
  intro map s i hrun hmem
  have hlen := length_encode_le_three map i
  refine cycle_of_decode hrun (decode_of_encode_prefix (List.prefix_iff_getElem.mpr ⟨hlen, fun k hk => ?_⟩))
  rw [← hmem k hk, s.load_pc_add k (hk.trans_le hlen)]

/-! ## Fault entries -/

/-- Settles O29: in each of the lists every instruction has the same index operands. -/
theorem invalidRegisterIndexFaults : Obligations.InvalidRegisterIndexFaults := by
  refine ⟨fun s a b ha i hi => exec_of_firstBadIndex (Instr.firstBadIndex_of_head ?_ ha) s,
    fun s a b ha hb i hi => exec_of_firstBadIndex (Instr.firstBadIndex_of_second ?_ ha hb) s⟩ <;>
  · revert i
    simp [Instr.indexOperands]

/-- Settles O30: the stack check comes after that of the operand. -/
theorem stackOverflowFaults : Obligations.StackOverflowFaults :=
  fun _ _ ha hs _ hi => (Executes.stackOverflow (List.mem_pair.mp hi) (regOf_of_lt ha) hs).exec_eq

/-- An instruction that leaves a RUNNING engine FAULTED did nothing but enter a fault. -/
theorem Executes.eq_takeFault {s t : State} {i : Instr} (h : Executes s i t) (hrun : s.run = .running)
    (ht : t.run = .faulted) : ∃ c info, c ≠ .unsupportedAluOperation ∧ t = s.takeFault c info := by
  cases h with
  | stackOverflow => exact ⟨.stackOverflow, 0, nofun, rfl⟩
  | badIndex => exact ⟨.invalidRegisterIndex, _, nofun, rfl⟩
  | hlt => exact absurd ht nofun
  | _ => exact absurd (hrun.symm.trans ht) nofun

theorem cycle_eq_takeFault {map : OpcodeMap} {s t : State} (h : cycle map s = .next t) (ht : t.run = .faulted) :
    ∃ c info, c ≠ .unsupportedAluOperation ∧ t = s.takeFault c info := by
  obtain ⟨hrun, ⟨i, _, he⟩ | ⟨_, rfl⟩⟩ := cycle_next_cases h
  · exact (exec_eq_next_iff.mp he).eq_takeFault hrun ht
  · exact ⟨.unknownOpcode, _, nofun, rfl⟩

/-- The causes a step can record (60_exceptions.md R200, R203). -/
theorem FaultCause.code_cases : ∀ {c : FaultCause}, c ≠ .unsupportedAluOperation → c.code = 1 ∨ c.code = 3 ∨ c.code = 4
  | .unknownOpcode, _ => .inl rfl
  | .invalidRegisterIndex, _ => .inr (.inl rfl)
  | .stackOverflow, _ => .inr (.inr rfl)
  | .unsupportedAluOperation, h => absurd rfl h

/-- Settles O32: only a fault entry leaves the engine FAULTED. -/
theorem faultsArePrecise : Obligations.FaultsArePrecise := by
  intro map s t h ht
  obtain ⟨c, info, hc, rfl⟩ := cycle_eq_takeFault h ht
  exact ⟨rfl, FaultCause.code_cases hc⟩

/-! ## The program counter -/

theorem eq_of_regOf {a : Byte} {ra : Reg} (ha : regOf a = some ra) (h : a.toNat < 8) : ra = ⟨a.toNat, h⟩ :=
  Option.some.inj (ha.symm.trans (regOf_of_lt h))

theorem State.jumpIf_not (s : State) (flag : Bool) (m : Mnemonic) (ra : Reg) :
    s.jumpIf (!flag) m ra = s.jump (if flag then s.nextAddress m else s.reg ra) := by
  cases flag <;> rfl

/-- Settles O38: no check faults, and every effect sets `pc` last, by the default advance or to the target. -/
theorem programCounterAfterEachInstruction : Obligations.ProgramCounterAfterEachInstruction := by
  intro i s t hwf hroom he
  cases exec_eq_next_iff.mp he with
  | badIndex hb => exact absurd hb (Instr.firstBadIndex_of_wf hwf)
  | stackOverflow hi ha hs =>
    exact absurd hs (hroom (hi.imp (congrArg Instr.mnemonic) (congrArg Instr.mnemonic)))
  | call ha | jmp ha | jeq ha =>
    intro h
    obtain rfl := eq_of_regOf ha h
    rfl
  | jne ha =>
    intro h
    obtain rfl := eq_of_regOf ha h
    exact congrArg State.pc (s.jumpIf_not s.flagE .jne _)
  | _ => rfl

end Machine

end Sys2Proof
end

section
/-! SUPPORT. The cycle is the pseudocode of 40_cycle.md R117: `specStep`, which compares raw bytes with the opcode map and
reads the register file as a list, reaches the state that `Executes` relates to the fetched instruction. -/

namespace Sys2Proof

@[simp] theorem OpcodeMap.byteOf_inj (map : OpcodeMap) {m n : Mnemonic} : map.byteOf m = map.byteOf n ↔ m = n :=
  ⟨map.injective m n, congrArg map.byteOf⟩

theorem Instr.mnemonic_withOperands (m : Mnemonic) (opA opB : Byte) : (m.withOperands opA opB).mnemonic = m := by
  cases m <;> rfl

namespace Machine

/-! ## The register file of the pseudocode -/

theorem toNat_of_regOf {a : Byte} {ra : Reg} (ha : regOf a = some ra) : a.toNat = ra := by
  have h := (legalIndex_iff a).mp (legalIndex_of_regOf ha)
  rw [eq_of_regOf ha h]

theorem not_gt_of_regOf {a : Byte} {ra : Reg} (ha : regOf a = some ra) : ¬ 7 < a.toNat := by
  have h := toNat_of_regOf ha
  omega

theorem State.getD_regs {a : Byte} {ra : Reg} (ha : regOf a = some ra) (s : State) :
    s.regs[a.toNat]?.getD 0#8 = s.reg ra := by
  simp [toNat_of_regOf ha, State.reg]

theorem State.setIfInBounds_regs {a : Byte} {ra : Reg} (ha : regOf a = some ra) (s : State) (v : Byte) :
    s.regs.setIfInBounds a.toNat v = (s.setReg ra v).regs := by
  ext i hi
  simp [toNat_of_regOf ha, Vector.getElem_setIfInBounds, Vector.getElem_set]

theorem State.getElem_regs_six (s : State) : s.regs[6] = s.sp := rfl

theorem State.setIfInBounds_regs_six (s : State) (v : Byte) : s.regs.setIfInBounds 6 v = (s.setSp v).regs :=
  s.setIfInBounds_regs (a := 6) rfl v

/-! ## The arms of the pseudocode -/

theorem specStep_of_unknown {map : OpcodeMap} {s : State} (h : map.lookup (s.load s.pc) = none) :
    specStep map s = s.takeFault .unknownOpcode (s.load s.pc) := by
  have hop : ∀ m, s.mem.read s.pc ≠ map.byteOf m := fun m => ((map.lookup_eq_none _).mp h m).symm
  simp [specStep, hop]
  rfl

section Known

variable {map : OpcodeMap} {s t : State} {i : Instr} {opA opB : Byte}
  (hop : s.mem.read s.pc = map.byteOf i.mnemonic) (hA : s.mem.read (s.pc + 1#8) = opA)
  (hB : s.mem.read (s.pc + 2#8) = opB) (hi : i.mnemonic.withOperands opA opB = i)

include hop hA hB hi

theorem specStep_of_firstBadIndex {b : Byte} (hb : i.firstBadIndex = some b) : specStep map s = s.badIndex b := by
  have hgt := toNat_of_firstBadIndex hb
  have hmem := List.mem_of_find?_eq_some hb
  cases i with
  | hlt | ret => exact absurd hb nofun
  | ldi | prn | push | pop | call | jmp | jeq | jne =>
    cases hi
    obtain rfl := List.mem_singleton.mp hmem
    simp [specStep, hop, hA, Instr.mnemonic, hgt]
    rfl
  | add | mul | cmp | st =>
    cases hi
    by_cases ha : 7 < opA.toNat
    · obtain rfl := Option.some.inj (hb.symm.trans (Instr.firstBadIndex_of_head rfl ha))
      simp [specStep, hop, hA, Instr.mnemonic, ha]
      rfl
    · obtain rfl := (List.mem_pair.mp hmem).resolve_left fun e => ha (e ▸ hgt)
      simp [specStep, hop, hA, hB, Instr.mnemonic, ha, hgt]
      rfl

omit hB in
theorem specStep_of_stackOverflow {a : Byte} {ra : Reg} (hpc : i = .push a ∨ i = .call a) (ha : regOf a = some ra)
    (hs : s.sp = 0) : specStep map s = s.takeFault .stackOverflow 0 := by
  obtain rfl | rfl := hpc <;>
  · cases hi
    simp [specStep, hop, hA, Instr.mnemonic, not_gt_of_regOf ha, State.getElem_regs_six, hs]
    rfl

theorem specStep_of_executes (h : Executes s i t) : specStep map s = t := by
  cases h with
  | hlt | ret =>
    simp [specStep, hop, Instr.mnemonic, State.getElem_regs_six, State.setIfInBounds_regs_six, -State.setSp_regs]
    rfl
  | ldi ha | prn ha | pop ha | jmp ha | jeq ha | jne ha =>
    cases hi
    simp [specStep, hop, hA, hB, Instr.mnemonic, not_gt_of_regOf ha, State.getD_regs ha, State.setIfInBounds_regs ha,
      State.getElem_regs_six, State.setIfInBounds_regs_six, State.jumpIf, State.flagE, -State.setReg_regs,
      -State.setSp_regs]
    rfl
  | add ha hb | mul ha hb | cmp ha hb | st ha hb =>
    cases hi
    simp [specStep, hop, hA, hB, Instr.mnemonic, not_gt_of_regOf ha, not_gt_of_regOf hb, State.getD_regs ha,
      State.getD_regs hb, State.setIfInBounds_regs ha, -State.setReg_regs]
    rfl
  | push ha hs | call ha hs =>
    cases hi
    have hs : s.sp ≠ 0#8 := hs
    simp [specStep, hop, hA, Instr.mnemonic, not_gt_of_regOf ha, hs, State.getD_regs ha, State.getElem_regs_six,
      State.setIfInBounds_regs_six, -State.setSp_regs]
    rfl
  | stackOverflow hpc ha hs => exact specStep_of_stackOverflow hop hA hi hpc ha hs
  | badIndex hb => exact specStep_of_firstBadIndex hop hA hB hi hb

end Known

/-- Settles O11: on an unknown byte both enter `UnknownOpcode`, and on a known one both do what `Executes` says of the
instruction that its mnemonic makes of the two operand latches. -/
theorem cycleIsThePseudocode : Obligations.CycleIsThePseudocode := by
  intro map s hrun
  cases hl : map.lookup (s.load s.pc) with
  | none => rw [cycle_of_unknown hrun hl, specStep_of_unknown hl]
  | some m =>
    obtain ⟨t, h⟩ := Executes.exists_next s (m.withOperands s.fetch.opA s.fetch.opB)
    have hm := Instr.mnemonic_withOperands m s.fetch.opA s.fetch.opB
    have hop : s.load s.pc = map.byteOf (m.withOperands s.fetch.opA s.fetch.opB).mnemonic := by
      rw [hm, (map.lookup_eq_some _ m).mp hl]
    rw [cycle_of_decode hrun (decode_of_lookup hl _ _), h.exec_eq, specStep_of_executes hop rfl rfl (by rw [hm]; rfl) h]

end Machine

end Sys2Proof
end

section
/-! SUPPORT. The whole next states of HLT and PRN (41_system_io.md). -/

namespace Sys2Proof.Machine

/-- Settles O18: the effect of HLT is the halt and the advance past one byte. -/
theorem hltResult : Obligations.HltResult :=
  fun _ => Executes.hlt.exec_eq

/-- Settles O19: a legal operand passes the check, and the effect is the output and the advance past two bytes. -/
theorem prnResult : Obligations.PrnResult :=
  fun s _ ha => exec_prn s ha

end Sys2Proof.Machine
end

section
/-! SUPPORT. The whole next states of LDI and ST (42_data_movement.md). -/

namespace Sys2Proof.Machine

/-- Settles O20: a legal operand passes the check, the literal is not checked, and the effect is the register write and the
advance past three bytes. -/
theorem ldiResult : Obligations.LdiResult :=
  fun _ _ _ ha => (Executes.ldi (regOf_of_lt ha)).exec_eq

/-- Settles O21: legal operands pass both checks, and the effect is the one store and the advance past three bytes. -/
theorem stResult : Obligations.StResult :=
  fun _ _ _ ha hb => (Executes.st (regOf_of_lt ha) (regOf_of_lt hb)).exec_eq

end Sys2Proof.Machine
end

section
/-! SUPPORT. The whole next states of ADD, MUL and CMP (43_alu.md). -/

namespace Sys2Proof.Machine

theorem compareFl_of_lt {va vb : Byte} (h : va.toNat < vb.toNat) : compareFl va vb = flLessThan := if_pos h

theorem compareFl_of_gt {va vb : Byte} (h : vb.toNat < va.toNat) : compareFl va vb = flGreaterThan :=
  (if_neg (Nat.lt_asymm h)).trans (if_pos h)

theorem compareFl_self (v : Byte) : compareFl v v = flEqual :=
  (if_neg (Nat.lt_irrefl _)).trans (if_neg (Nat.lt_irrefl _))

/-- Settles O22: legal operands pass both checks, and the sum and the product of two bytes are those of their values
modulo 256. -/
theorem addMulResult : Obligations.AddMulResult :=
  fun s a b ha hb =>
    ⟨⟨s.regs[a.toNat] + s.regs[b.toNat], BitVec.toNat_add _ _, (Executes.add (regOf_of_lt ha) (regOf_of_lt hb)).exec_eq⟩,
      ⟨s.regs[a.toNat] * s.regs[b.toNat], BitVec.toNat_mul _ _, (Executes.mul (regOf_of_lt ha) (regOf_of_lt hb)).exec_eq⟩⟩

/-- Settles O23: legal operands pass both checks, and `FL` becomes the comparison's outcome, one for each order. -/
theorem cmpResult : Obligations.CmpResult := by
  intro s a b ha hb
  refine ⟨compareFl s.regs[a.toNat] s.regs[b.toNat], (Executes.cmp (regOf_of_lt ha) (regOf_of_lt hb)).exec_eq,
    compareFl_of_lt, compareFl_of_gt, fun heq => ?_⟩
  rw [heq]
  exact compareFl_self _

end Sys2Proof.Machine
end

section
/-! SUPPORT. The whole next states of PUSH and POP, a PUSH followed by a POP, and the forms that name register 6
(44_stack.md R170 to R174; 45_control_transfer.md R181). -/

namespace Sys2Proof.Machine

/-! ## One PUSH and one POP -/

theorem mk_toNat_eq_spIndex_iff {a : Byte} (ha : a.toNat < 8) : (⟨a.toNat, ha⟩ : Reg) = Config.spIndex ↔ a = 6 :=
  Fin.ext_iff.trans (BitVec.toNat_inj (y := 6))

/-- The SP that POP increments, register 6 being written before the increment (44_stack.md R173). -/
theorem State.sp_setReg_of_lt (s : State) (v : Byte) {a : Byte} (ha : a.toNat < 8) :
    (s.setReg ⟨a.toNat, ha⟩ v).sp = if a = 6 then v else s.sp := by
  simp only [State.sp_setReg, eq_comm (a := Config.spIndex), mk_toNat_eq_spIndex_iff]

/-- Settles O24: both checks pass, and the value stored is that of the register after the decrement. -/
theorem pushResult : Obligations.PushResult := by
  intro s a ha hs
  rw [(Executes.push (regOf_of_lt ha) hs).exec_eq, State.reg_setSp_of_lt]
  rfl

/-- Settles O25: the check passes, and the SP incremented is that after the register write. -/
theorem popResult : Obligations.PopResult := by
  intro s a ha
  rw [(Executes.pop (regOf_of_lt ha)).exec_eq, State.incSp, State.sp_setReg_of_lt]
  rfl

/-! ## PUSH, then POP -/

/-- The state after a PUSH of the value `v` (44_stack.md R170). -/
def State.pushed (s : State) (v : Byte) : State := ((s.setSp (s.sp - 1)).store (s.sp - 1) v).advance .push

theorem executes_push {s : State} {a : Byte} {ra : Reg} (ha : regOf a = some ra) (hs : s.sp ≠ 0) :
    Executes s (.push a) (s.pushed ((s.setSp (s.sp - 1)).reg ra)) := .push ha hs

@[simp] theorem State.sp_pushed (s : State) (v : Byte) : (s.pushed v).sp = s.sp - 1 := s.sp_setSp _

theorem State.load_sp_pushed (s : State) (v : Byte) : (s.pushed v).load (s.pushed v).sp = v :=
  s.sp_pushed v ▸ Memory.read_write_self _ _ _

theorem State.incSp_pushed_regs (s : State) (v : Byte) : (s.pushed v).incSp.regs = s.regs := by
  have hset : (s.setSp (s.sp - 1)).setSp s.sp = s := (s.setReg_setReg _ _ _).trans (s.setReg_reg _)
  rw [State.incSp, State.sp_pushed, BitVec.sub_add_cancel]
  exact (congrArg State.regs hset :)

theorem Executes.execAll_cons {s t : State} {i : Instr} (h : Executes s i t) (is : List Instr) :
    execAll (i :: is) s = execAll is t := by
  rw [execAll, h.exec_eq]

/-- The POP loads what the PUSH stored. -/
theorem execAll_push_pop {s : State} {a b : Byte} {ra rb : Reg} (ha : regOf a = some ra) (hb : regOf b = some rb)
    (hs : s.sp ≠ 0) {v : Byte} (hv : (s.setSp (s.sp - 1)).reg ra = v) :
    execAll [.push a, .pop b] s = some (((s.pushed v).setReg rb v).incSp.advance .pop) := by
  rw [(executes_push ha hs).execAll_cons, (Executes.pop hb).execAll_cons, State.load_sp_pushed, hv]
  rfl

/-- Settles O39: the increment after the PUSH gives the register file back, and the POP changes one register of it. -/
theorem pushThenPopCopies : Obligations.PushThenPopCopies := by
  intro s a b ha hb ha6 hb6 hs
  have hv : (s.setSp (s.sp - 1)).reg ⟨a.toNat, ha⟩ = s.regs[a.toNat] := (s.reg_setSp_of_lt _ ha).trans (if_neg ha6)
  have hne : (⟨b.toNat, hb⟩ : Reg) ≠ Config.spIndex := mt (mk_toNat_eq_spIndex_iff hb).mp hb6
  refine ⟨_, execAll_push_pop (regOf_of_lt ha) (regOf_of_lt hb) hs hv, ?_⟩
  rw [State.advance_regs, State.incSp_setReg_comm _ _ hne, State.setReg_regs, State.incSp_pushed_regs]

/-! ## The forms that name register 6 -/

theorem regOf_six : regOf 6 = some Config.spIndex := rfl

/-- Settles O40: each statement of an instruction sees the SP that the one before it left. -/
theorem registerSixAsOperand : Obligations.RegisterSixAsOperand := by
  refine fun s => ⟨fun hs => ⟨_, (executes_push regOf_six hs).exec_eq, s.sp_pushed _, s.load_sp_pushed _⟩,
    ⟨_, (Executes.pop regOf_six).exec_eq, by simp⟩,
    fun hs => ⟨_, execAll_push_pop regOf_six regOf_six hs (s.sp_setSp _), by simp⟩,
    fun hs => ⟨_, (Executes.call regOf_six hs).exec_eq, rfl, ?_⟩⟩
  rw [State.jump_pc, State.reg_spIndex, State.sp_setSp]
  exact Memory.read_write_self _ _ _

end Sys2Proof.Machine
end

section
/-! SUPPORT. The whole next states of CALL, RET and the jumps, a RET that resumes after its CALL, and nested calls
(45_control_transfer.md R180 to R187). -/

namespace Sys2Proof.Machine

/-! ## One instruction -/

/-- Settles O26: both checks pass, and the target is that of the register after the decrement. -/
theorem callResult : Obligations.CallResult := by
  intro s a ha hs
  rw [(Executes.call (regOf_of_lt ha) hs).exec_eq, State.reg_setSp_of_lt]
  rfl

/-- Settles O27: RET has no check, and its effect is the jump and the increment of SP. -/
theorem retResult : Obligations.RetResult :=
  fun _ => Executes.ret.exec_eq

theorem exec_jeq_of_flagE {a : Byte} {ra : Reg} {e : Bool} (ha : regOf a = some ra) {s : State} (h : s.flagE = e) :
    exec (.jeq a) s = .next (s.jumpIf e .jeq ra) := h ▸ (Executes.jeq ha).exec_eq

theorem exec_jne_of_flagE {a : Byte} {ra : Reg} {e : Bool} (ha : regOf a = some ra) {s : State} (h : s.flagE = e) :
    exec (.jne a) s = .next (s.jumpIf (!e) .jne ra) := h ▸ (Executes.jne ha).exec_eq

/-- Settles O28: the check passes, and `FL.E` selects the arm, JNE's being the opposite of JEQ's. -/
theorem jumpResults : Obligations.JumpResults := by
  intro s a ha
  have hra := regOf_of_lt ha
  exact ⟨(Executes.jmp hra).exec_eq, fun h => ⟨exec_jeq_of_flagE hra h, exec_jne_of_flagE hra h⟩,
    fun h => ⟨exec_jeq_of_flagE hra h, exec_jne_of_flagE hra h⟩⟩

/-! ## CALL, and later its RET -/

/-- The state after a CALL to the address `target` (45_control_transfer.md R180). -/
def State.called (s : State) (target : Byte) : State :=
  ((s.setSp (s.sp - 1)).store (s.sp - 1) (s.nextAddress .call)).jump target

theorem executes_call {s : State} {a : Byte} {ra : Reg} (ha : regOf a = some ra) (hs : s.sp ≠ 0) :
    Executes s (.call a) (s.called ((s.setSp (s.sp - 1)).reg ra)) := .call ha hs

@[simp] theorem State.sp_called (s : State) (target : Byte) : (s.called target).sp = s.sp - 1 := s.sp_setSp _

theorem State.load_called (s : State) (target x : Byte) :
    (s.called target).load x = if x = s.sp - 1 then s.pc + 2 else s.load x := s.mem.read_write _ _ x

theorem State.load_sp_called (s : State) (target : Byte) :
    (s.called target).load (s.called target).sp = s.pc + 2 := by
  rw [State.sp_called, State.load_called, if_pos rfl]

/-- The state after a RET (45_control_transfer.md R182). -/
def State.returned (s : State) : State := (s.jump (s.load s.sp)).incSp

theorem executes_ret (s : State) : Executes s .ret s.returned := .ret

@[simp] theorem State.pc_returned (s : State) : s.returned.pc = s.load s.sp := rfl
@[simp] theorem State.sp_returned (s : State) : s.returned.sp = s.sp + 1 := State.sp_incSp _
@[simp] theorem State.load_returned (s : State) (x : Byte) : s.returned.load x = s.load x := rfl

/-- Settles O41: RET takes its target from the cell that the CALL wrote, and its increment undoes the CALL's decrement. -/
theorem callThenReturnResumes : Obligations.CallThenReturnResumes := by
  intro s u v a ha hs he hsp hcell
  obtain rfl := (exec_eq_next_iff.mp he).unique (executes_call (regOf_of_lt ha) hs)
  refine ⟨v.returned, (executes_ret v).exec_eq, ?_, ?_⟩
  · rw [State.pc_returned, hcell, State.load_sp_called]
  · rw [State.sp_returned, hsp, State.sp_called, BitVec.sub_add_cancel]

/-! ## Nested calls -/

/-- `t` has the stack of `s`: the same SP, and the same cells from there up (45_control_transfer.md R183). -/
def State.StackKept (s t : State) : Prop := t.sp = s.sp ∧ ∀ x, s.sp ≤ x → t.load x = s.load x

/-- The calls of the registers in `targets`, the first outermost, then as many returns. -/
def callNest (targets : List Byte) : List Instr := targets.map .call ++ List.replicate targets.length .ret

theorem callNest_cons (a : Byte) (targets : List Byte) :
    callNest (a :: targets) = .call a :: (callNest targets ++ [.ret]) := by
  simp [callNest, List.replicate_succ']

theorem execAll_append (is js : List Instr) (s : State) : execAll (is ++ js) s = (execAll is s).bind (execAll js) := by
  induction is generalizing s with
  | nil => rfl
  | cons i is ih =>
    obtain ⟨t, h⟩ := Executes.exists_next s i
    rw [List.cons_append, h.execAll_cons, h.execAll_cons, ih]

/-- The stack after the RET that ends a CALL's inner instructions, if those keep the stack that the CALL made. -/
theorem State.StackKept.returned {s v : State} {target : Byte} (hs : s.sp ≠ 0) (h : (s.called target).StackKept v) :
    s.StackKept v.returned ∧ v.returned.pc = s.pc + 2 := by
  obtain ⟨hsp, hload⟩ := h
  rw [State.sp_called] at hsp hload
  refine ⟨⟨?_, fun x hx => ?_⟩, ?_⟩
  · rw [State.sp_returned, hsp, BitVec.sub_add_cancel]
  · have hne : x ≠ s.sp - 1 := by bv_omega
    have hle : s.sp - 1 ≤ x := by bv_omega
    rw [State.load_returned, hload x hle, State.load_called, if_neg hne]
  · rw [State.pc_returned, hsp, hload _ (BitVec.le_refl _), State.load_called, if_pos rfl]

/-- A nest of legal calls that the stack has room for completes, keeps the stack, and resumes after its outermost CALL. -/
theorem exists_execAll_callNest {targets : List Byte} (hlegal : ∀ a ∈ targets, a.toNat < 8) (s : State)
    (hroom : targets.length ≤ s.sp.toNat) :
    ∃ t, execAll (callNest targets) s = some t ∧ s.StackKept t ∧ (targets ≠ [] → t.pc = s.pc + 2) := by
  induction targets generalizing s with
  | nil => exact ⟨s, rfl, ⟨rfl, fun _ _ => rfl⟩, nofun⟩
  | cons a targets ih =>
    obtain ⟨ha, hlegal⟩ := List.forall_mem_cons.mp hlegal
    rw [List.length_cons] at hroom
    have hs : s.sp ≠ 0 := by bv_omega
    have hcall := executes_call (regOf_of_lt ha) hs
    have hinner : targets.length ≤ (s.called ((s.setSp (s.sp - 1)).reg ⟨a.toNat, ha⟩)).sp.toNat := by
      rw [State.sp_called]
      bv_omega
    obtain ⟨v, hv, hkept, -⟩ := ih hlegal _ hinner
    obtain ⟨hkept, hpc⟩ := hkept.returned hs
    refine ⟨v.returned, ?_, hkept, fun _ => hpc⟩
    rw [callNest_cons, hcall.execAll_cons, execAll_append, hv, Option.bind_some, (executes_ret v).execAll_cons, execAll]

/-- Settles O42: each CALL's return address is in a cell that the nest inside it leaves alone. -/
theorem nestedCallsReturnInReverse : Obligations.NestedCallsReturnInReverse := by
  intro s first others hfirst hothers hroom
  obtain ⟨t, ht, ⟨hsp, -⟩, hpc⟩ := exists_execAll_callNest (List.forall_mem_cons.mpr ⟨hfirst, hothers⟩) s hroom
  exact ⟨t, ht, hpc (List.cons_ne_nil _ _), hsp⟩

end Sys2Proof.Machine
end

section
/-! SUPPORT. Which instructions end in a fault, and what the others keep of the run state and the fault registers
(60_exceptions.md R200 to R208, R218; 10_state.md R33, R34). -/

namespace Sys2Proof.Machine

/-- Settles O7: a byte that is no mnemonic's is one that the lookup does not find. -/
theorem unknownOpcodeFaults : Obligations.UnknownOpcodeFaults :=
  fun map _ hrun h => cycle_of_unknown hrun ((map.lookup_eq_none _).mpr h)

/-- Settles O36: a failed check is an illegal operand or a full stack, and of the effects only HLT's writes `run`. -/
theorem runStateChanges : Obligations.RunStateChanges := by
  intro i s t he
  cases exec_eq_next_iff.mp he with
  | hlt => exact .inl ⟨rfl, rfl, rfl, rfl, rfl⟩
  | badIndex hb =>
    have hne : i ≠ .hlt := by rintro rfl; exact absurd hb nofun
    have hwf : i.wf = false := Bool.eq_false_iff.mpr fun hwf => Instr.firstBadIndex_of_wf hwf hb
    exact .inr (.inr ⟨hne, rfl, rfl, .inl hwf⟩)
  | stackOverflow hi _ hs =>
    have hne : i ≠ .hlt := by rintro rfl; exact absurd hi nofun
    have hfull : ¬ i.hasStackRoom s := fun h => h (hi.imp (congrArg Instr.mnemonic) (congrArg Instr.mnemonic)) hs
    exact .inr (.inr ⟨hne, rfl, rfl, .inr hfull⟩)
  | _ => exact .inr (.inl ⟨nofun, rfl, rfl, rfl, rfl⟩)

/-- Settles O31: there is a next state, and of its three forms the fault is excluded. -/
theorem wellFormedInstructionsComplete : Obligations.WellFormedInstructionsComplete := by
  intro i s hwf hroom hrun
  obtain ⟨t, h⟩ := Executes.exists_next s i
  refine ⟨t, h.exec_eq, ?_⟩
  obtain ⟨_, ht, hregs⟩ | ⟨_, ht, hregs⟩ | ⟨_, _, _, hfault⟩ := runStateChanges i s t h.exec_eq
  · exact ⟨by simp [ht], hregs⟩
  · exact ⟨by simp [ht, hrun], hregs⟩
  · simp [hwf, hroom] at hfault

end Sys2Proof.Machine
end

section
/-! SUPPORT. Reset and launch: what memory holds once an image is written, and the state a run starts from
(70_reset_and_hazards.md R240, R241, R246, R247). -/

namespace Sys2Proof.Machine

/-! ## Writing an image -/

/-- The one law of a read after an image was written: the byte at the distance from the image's base, and beyond the image
what the cell held. The bound keeps the image from wrapping onto its own start. -/
theorem Memory.read_writeImage {m : Memory} {a : Byte} {bs : List Byte} (h : bs.length ≤ Config.memSize) (x : Byte) :
    (m.writeImage a bs).read x = bs[(x - a).toNat]?.getD (m.read x) := by
  induction bs generalizing m a with
  | nil => rfl
  | cons b bs ih =>
    have hlen : bs.length ≤ 255 := Nat.le_of_succ_le_succ h
    rw [Memory.writeImage, ih (hlen.trans (by decide)), Memory.read_write]
    by_cases hx : x = a
    · have hlast : (x - (a + 1)).toNat = 255 := by bv_omega
      rw [hlast, List.getElem?_eq_none hlen]
      simp [hx]
    · have hsucc : (x - a).toNat = (x - (a + 1)).toNat + 1 := by bv_omega
      rw [if_neg hx, hsucc, List.getElem?_cons_succ]

/-! ## Launching -/

/-- All that a launch can answer with a state. -/
theorem launch_eq_ok_iff {image : List Byte} {s : State} :
    launch image = .ok s ↔
      image.length ≤ Config.memSize ∧ s = { State.reset with mem := Memory.writeImage [] Config.loadBase image } := by
  unfold launch
  split
  · next h => simp [h, State.reset, eq_comm]
  · next h => simp [h]

theorem launch_of_gt {image : List Byte} (h : Config.memSize < image.length) :
    launch image = .error (.imageTooLong image.length) := if_neg h.not_ge

section
variable {image : List Byte} {s : State} (h : launch image = .ok s)
include h

theorem mem_wf_of_launch : s.mem.wf := by
  obtain ⟨_, rfl⟩ := launch_eq_ok_iff.mp h
  exact Memory.wf_writeImage _ _ Memory.wf_nil

/-- The launch state differs from reset in memory alone. -/
theorem eq_reset_of_launch : s = { State.reset with mem := s.mem } := by
  obtain ⟨_, rfl⟩ := launch_eq_ok_iff.mp h
  rfl

theorem load_of_launch (x : Byte) : s.load x = image[x.toNat]?.getD 0 := by
  obtain ⟨hlen, rfl⟩ := launch_eq_ok_iff.mp h
  exact (Memory.read_writeImage hlen x).trans (by simp)

theorem inv_of_launch : s.Inv := by
  obtain ⟨_, hfl, hfault⟩ := resetMeetsInvariant
  have hmem := mem_wf_of_launch h
  rw [eq_reset_of_launch h]
  exact ⟨hmem, hfl, State.faultRegsOk_of_eq hfault rfl nofun rfl rfl rfl⟩

end

/-! ## The obligations -/

/-- Settles O13: the image is written from address 0 into empty memory, and `image[k]?` says which cells it reaches. -/
theorem launchPlacesTheImage : Obligations.LaunchPlacesTheImage := by
  refine fun image => ⟨fun hlen => ?_, launch_of_gt⟩
  obtain ⟨s, hs⟩ : ∃ s, launch image = .ok s := ⟨_, launch_eq_ok_iff.mpr ⟨hlen, rfl⟩⟩
  refine ⟨s, hs, eq_reset_of_launch hs, mem_wf_of_launch hs, fun k hk => ?_, fun a ha => ?_⟩
  · have hcell : (BitVec.ofNat 8 k).toNat = k := (BitVec.toNat_ofNat k 8).trans (Nat.mod_eq_of_lt (hk.trans_le hlen))
    simp [load_of_launch hs, hcell, hk]
  · simp [load_of_launch hs, ha]

/-- Settles O46: the launch state meets the invariant, and every step of the run keeps it. -/
theorem everyVisitedStateMeetsInvariant : Obligations.EveryVisitedStateMeetsInvariant := fun map _ _ _ hlaunch hreach =>
  hreach.keeps (stepKeepsInvariant map) (inv_of_launch hlaunch)

/-- Settles O12: every clause is a field of the reset state; its memory lists no cell. -/
theorem resetState : Obligations.ResetState := fun _ =>
  ⟨rfl, by decide, rfl, rfl, Memory.read_nil, rfl, rfl, rfl, rfl, rfl⟩

end Sys2Proof.Machine
end
